-- ==== Sys2Proof/Config.lean ====
section
/-! DEFINITION. What is fixed for one chip (00_scope.md R6): the word width and the I/O backend.
The spec leaves no value free (93_implementation_defined.md Part 1), so no free value stands here. -/

namespace Sys2Proof

/-- Which implementation of the I/O capability backs the engine (R6). `channel` is out of the
spec's scope (R5); only its engine side, recorded in R114, is modelled (log entry 7). -/
inductive IoBackend where
  | direct
  | channel
  deriving DecidableEq, Repr

/-- The configuration of a chip (R6). It is carried beside the state and never written (log entry 2). -/
structure Config where
  /-- `W`, the width of a machine word in bits. -/
  wordWidth : Nat
  /-- `IO_BACKEND`. -/
  ioBackend : IoBackend
  deriving DecidableEq, Repr

/-- "The model must require `W >= 8` so that the opcode 99 is a word" (R6). -/
abbrev Config.Valid (c : Config) : Prop := 8 ≤ c.wordWidth

/-- PRESUMED: `W = 64`, the spec's suggestion from general knowledge (R6, D1; log entry 1). The backend
is Direct, the only one specified (R6, D15). -/
def Config.suggested : Config := { wordWidth := 64, ioBackend := .direct }

end Sys2Proof
end

