-- ==== Sys2Proof/Word.lean ====
section
/-! DEFINITION. The machine word: an integer in the range of a `W`-bit two's-complement number
(00_scope.md R8). The machine computes in the mathematical integers and narrows by a range check, and
it has no bits a program could see (R7, R102), so the type of a word is `Int` and its range is
`IsWord` (log entry 3). -/

namespace Sys2Proof

/-- `MINW = -2^(W-1)` (R6). -/
def minWord (W : Nat) : Int := -((2 ^ (W - 1) : Nat) : Int)

/-- `MAXW = 2^(W-1) - 1` (R6). -/
def maxWord (W : Nat) : Int := ((2 ^ (W - 1) : Nat) : Int) - 1

/-- `MAXADDR = MAXW` (R6, R40). -/
abbrev maxAddr (W : Nat) : Int := maxWord W

/-- `v` is a word of a chip of width `W`: `MINW <= v <= MAXW` (R8). -/
abbrev IsWord (W : Nat) (v : Int) : Prop := minWord W ≤ v ∧ v ≤ maxWord W

end Sys2Proof
end

