-- ==== Sys2Proof/Syntax.lean ====
section
/-! DEFINITION. The instructions, one constructor per row of spec/opcode_table.json, with their
operands: an addressing mode and the whole operand cell (30_encoding.md R60 to R67). -/

namespace Sys2Proof

/-- The addressing modes (R62). -/
inductive Mode where
  /-- The operand is an address to dereference. -/
  | position
  /-- The operand is the literal value; never on a write operand (R73). -/
  | immediate
  /-- The operand is an offset added to the relative base. -/
  | relative
  deriving DecidableEq, Repr

/-- One operand: its mode and `raw[k]`, the operand cell used whole (R67). -/
structure Operand where
  mode : Mode
  raw  : Int
  deriving DecidableEq, Repr

/-- The ten instructions (R63, R66). In a three-operand instruction the third is the write operand;
the operand of `inp` is its write operand. -/
inductive Instr where
  | add (op1 op2 target : Operand)
  | mul (op1 op2 target : Operand)
  | inp (target : Operand)
  | out (op1 : Operand)
  | jt (op1 op2 : Operand)
  | jf (op1 op2 : Operand)
  | lt (op1 op2 target : Operand)
  | eq (op1 op2 target : Operand)
  | arb (op1 : Operand)
  | halt
  deriving DecidableEq, Repr

/-- The ten meaningful opcode values by name (R66). -/
inductive Opcode where
  | add | mul | inp | out | jt | jf | lt | eq | arb | halt
  deriving DecidableEq, Repr

/-- The opcode of an instruction. -/
def Instr.opcode : Instr → Opcode
  | .add _ _ _ => .add
  | .mul _ _ _ => .mul
  | .inp _ => .inp
  | .out _ => .out
  | .jt _ _ => .jt
  | .jf _ _ => .jf
  | .lt _ _ _ => .lt
  | .eq _ _ _ => .eq
  | .arb _ => .arb
  | .halt => .halt

/-- The operands of an instruction in operand order (R60). -/
def Instr.operands : Instr → List Operand
  | .add x y t => [x, y, t]
  | .mul x y t => [x, y, t]
  | .inp t => [t]
  | .out x => [x]
  | .jt x y => [x, y]
  | .jf x y => [x, y]
  | .lt x y t => [x, y, t]
  | .eq x y t => [x, y, t]
  | .arb x => [x]
  | .halt => []

/-- The write operand of an instruction, where it has one (R63). -/
def Instr.writeOperand : Instr → Option Operand
  | .add _ _ t => some t
  | .mul _ _ t => some t
  | .inp t => some t
  | .out _ => none
  | .jt _ _ => none
  | .jf _ _ => none
  | .lt _ _ t => some t
  | .eq _ _ t => some t
  | .arb _ => none
  | .halt => none

/-- "instruction length = 1 + operand count", in cells (R64). -/
def Instr.length (i : Instr) : Nat := 1 + i.operands.length

end Sys2Proof
end

