-- ==== Sys2Proof/WellFormed.lean ====
section
/-! DEFINITION. Which instruction terms are instructions of a chip of width `W`: every operand cell
is a word (30_encoding.md R67) and the write operand is not Immediate (R73). -/

namespace Sys2Proof

/-- An operand cell holds a word (R67). -/
def Operand.wf (W : Nat) (o : Operand) : Bool := decide (IsWord W o.raw)

/-- A write operand is a word and its mode is Position or Relative (R73). -/
def Operand.wfTarget (W : Nat) (o : Operand) : Bool := o.wf W && decide (o.mode ≠ .immediate)

/-- A well-formed instruction of a chip of width `W`. -/
def Instr.wf (W : Nat) : Instr → Bool
  | .add x y t => x.wf W && y.wf W && t.wfTarget W
  | .mul x y t => x.wf W && y.wf W && t.wfTarget W
  | .inp t => t.wfTarget W
  | .out x => x.wf W
  | .jt x y => x.wf W && y.wf W
  | .jf x y => x.wf W && y.wf W
  | .lt x y t => x.wf W && y.wf W && t.wfTarget W
  | .eq x y t => x.wf W && y.wf W && t.wfTarget W
  | .arb x => x.wf W
  | .halt => true

end Sys2Proof
end

