-- ==== Sys2Proof/Decode.lean ====
section
/-! DEFINITION. The instruction decoder (30_encoding.md R60 to R76, 40_step_and_operands.md R82, R83):
the split of an instruction word by decimal digits, the checks in their order, the operand cells;
then the encoder (R78) and the reading of an instruction laid out in bits, which the host asks for. -/

namespace Sys2Proof

/-- `dig(w, k)`, the decimal digit of weight `10^k` (00_scope.md R7). -/
def dig (w k : Nat) : Nat := w / 10 ^ k % 10

/-- The opcode map (R66). -/
def Opcode.ofCode : Nat → Option Opcode
  | 1 => some .add
  | 2 => some .mul
  | 3 => some .inp
  | 4 => some .out
  | 5 => some .jt
  | 6 => some .jf
  | 7 => some .lt
  | 8 => some .eq
  | 9 => some .arb
  | 99 => some .halt
  | _ => none

/-- The opcode value of each instruction (R66). -/
def Opcode.code : Opcode → Nat
  | .add => 1
  | .mul => 2
  | .inp => 3
  | .out => 4
  | .jt => 5
  | .jf => 6
  | .lt => 7
  | .eq => 8
  | .arb => 9
  | .halt => 99

/-- `n = arity(op)`, the operand count (R63). -/
def Opcode.arity : Opcode → Nat
  | .add => 3
  | .mul => 3
  | .inp => 1
  | .out => 1
  | .jt => 2
  | .jf => 2
  | .lt => 3
  | .eq => 3
  | .arb => 1
  | .halt => 0

/-- `wpos = writepos(op)`, the position of the write operand (R63, R80). -/
def Opcode.writePos : Opcode → Option Nat
  | .add => some 3
  | .mul => some 3
  | .inp => some 1
  | .out => none
  | .jt => none
  | .jf => none
  | .lt => some 3
  | .eq => some 3
  | .arb => none
  | .halt => none

/-- The mode a mode digit names (R62); 3 to 9 name none (R72). -/
def Mode.ofDigit : Nat → Option Mode
  | 0 => some .position
  | 1 => some .immediate
  | 2 => some .relative
  | _ => none

/-- The digit of a mode (R62). -/
def Mode.digit : Mode → Nat
  | .position => 0
  | .immediate => 1
  | .relative => 2

/-- Why a word is not an instruction. -/
inductive DecodeError where
  /-- The word is negative or its low two digits are no opcode (R70, R71). -/
  | malformedProgram (w : Int)
  /-- Mode digit `d` at operand position `k` is 3 to 9, or 1 on the write operand (R72, R73). -/
  | invalidMode (k d : Nat)
  deriving DecidableEq, Repr

/-- What the instruction word alone says: the opcode and the three mode digits (R61). -/
structure Header where
  op : Opcode
  m1 : Mode
  m2 : Mode
  m3 : Mode
  deriving DecidableEq, Repr

/-- The mode of operand position `k`. -/
def Header.mode (h : Header) : Nat → Mode
  | 1 => h.m1
  | 2 => h.m2
  | _ => h.m3

/-- The mode of position `k`: digit `dig(w, k+1)`, which must be 0, 1 or 2 (R61, R72). -/
def modeAt (w k : Nat) : Except DecodeError Mode :=
  match Mode.ofDigit (dig w (k + 1)) with
  | some m => .ok m
  | none => .error (.invalidMode k (dig w (k + 1)))

/-- "Immediate is invalid as a write target" (R73, R83). -/
def Header.checkTarget (h : Header) : Except DecodeError Header :=
  match h.op.writePos with
  | some k => if h.mode k = .immediate then .error (.invalidMode k 1) else .ok h
  | none => .ok h

/-- The checks on the instruction word in their order: the opcode (R82), then the three mode
digits whether used or not, then the write operand's (R83). Digits above the ten-thousands place
are not looked at (R74). -/
def decodeHeader (w : Int) : Except DecodeError Header :=
  if w < 0 then .error (.malformedProgram w)
  else match Opcode.ofCode (w.toNat % 100) with
    | none => .error (.malformedProgram w)
    | some op => do
      let m1 ← modeAt w.toNat 1
      let m2 ← modeAt w.toNat 2
      let m3 ← modeAt w.toNat 3
      Header.checkTarget { op := op, m1 := m1, m2 := m2, m3 := m3 }

/-- Operand cell `k`, counted from 0, of the cells after the instruction word; a cell that is not
listed reads 0, as unwritten memory does (20_memory.md R57; log entry 12). -/
def rawAt (cells : List Int) (k : Nat) : Int := cells.getD k 0

/-- The instruction of a header and its operand cells (R60, R63, R67). -/
def Header.assemble (h : Header) (cells : List Int) : Instr :=
  let a : Operand := ⟨h.m1, rawAt cells 0⟩
  let b : Operand := ⟨h.m2, rawAt cells 1⟩
  let c : Operand := ⟨h.m3, rawAt cells 2⟩
  match h.op with
  | .add => .add a b c
  | .mul => .mul a b c
  | .inp => .inp a
  | .out => .out a
  | .jt => .jt a b
  | .jf => .jf a b
  | .lt => .lt a b c
  | .eq => .eq a b c
  | .arb => .arb a
  | .halt => .halt

/-- The decoder over the cells from `pc` on: total, and a pure function of them (R76). -/
def decode (cells : List Int) : Except DecodeError Instr := do
  let h ← decodeHeader (rawAt cells 0)
  return h.assemble cells.tail

/-- The canonical instruction word `opcode + 100*m[1] + 1000*m[2] + 10000*m[3]` (R78). -/
def Header.word (h : Header) : Int :=
  ((h.op.code + 100 * h.m1.digit + 1000 * h.m2.digit + 10000 * h.m3.digit : Nat) : Int)

/-- The header of an instruction: `m[k] = 0` for every position the opcode does not use (R78). -/
def Instr.header : Instr → Header
  | .add x y t => ⟨.add, x.mode, y.mode, t.mode⟩
  | .mul x y t => ⟨.mul, x.mode, y.mode, t.mode⟩
  | .inp t => ⟨.inp, t.mode, .position, .position⟩
  | .out x => ⟨.out, x.mode, .position, .position⟩
  | .jt x y => ⟨.jt, x.mode, y.mode, .position⟩
  | .jf x y => ⟨.jf, x.mode, y.mode, .position⟩
  | .lt x y t => ⟨.lt, x.mode, y.mode, t.mode⟩
  | .eq x y t => ⟨.eq, x.mode, y.mode, t.mode⟩
  | .arb x => ⟨.arb, x.mode, .position, .position⟩
  | .halt => ⟨.halt, .position, .position, .position⟩

/-- The cells of an instruction: the canonical word, then one operand cell per operand (R60, R78). -/
def encode (i : Instr) : List Int := i.header.word :: i.operands.map Operand.raw

/-- The `k`-th `W`-bit slice of the bits `w`, as a two's-complement word. DESIGN CHOICE: the spec
lays no instruction out in bits; the first cell takes the lowest bits (log entry 10). -/
def cellOfBits (W k w : Nat) : Int :=
  if w / 2 ^ (W * k) % 2 ^ W < 2 ^ (W - 1) then ((w / 2 ^ (W * k) % 2 ^ W : Nat) : Int)
  else ((w / 2 ^ (W * k) % 2 ^ W : Nat) : Int) - ((2 ^ W : Nat) : Int)

/-- The four cells of the longest instruction (R60) in the low `nbits` bits of `w`; every bit
above is 0. -/
def cellsOfBits (W nbits w : Nat) : List Int :=
  [cellOfBits W 0 (w % 2 ^ nbits), cellOfBits W 1 (w % 2 ^ nbits), cellOfBits W 2 (w % 2 ^ nbits),
    cellOfBits W 3 (w % 2 ^ nbits)]

/-- The instruction the decoder reads from an instruction whose bits are `w`, at the word width of
the reset configuration (log entry 10). -/
def decodeTableWord (nbits w : Nat) : Option Instr :=
  match decode (cellsOfBits Config.suggested.wordWidth nbits w) with
  | .ok i => some i
  | .error _ => none

end Sys2Proof
end

