-- ==== Sys2Proof/Machine/State.lean ====
section
/-! DEFINITION. The state of one machine (10_state.md R20 to R37), the fault causes the spec names
(60_exceptions.md R150), the reasons a step does not exist, and the state after reset (R35). -/

namespace Sys2Proof.Machine

/-- The engine's state-machine state (10_state.md R23). -/
inductive Status where
  | running
  /-- An `IN` has asked for input and none has arrived; only under the Channel backend (R114). -/
  | awaitingInput
  | halted
  | faulted
  deriving DecidableEq, Repr

/-- The fault causes with the information they record (60_exceptions.md R150). They are values of
the register `cause`: a step that raises one answers a NEXT state (R157). -/
inductive Cause where
  /-- The word at `pc` is not an instruction (R151). -/
  | malformedProgram (w : Int)
  /-- A computed memory address or a taken jump's target is negative (R152). -/
  | negativeAddress (a : Int)
  /-- `IN` in Direct mode with no input left (R153). -/
  | inputExhausted
  /-- Mode digit `d` at operand position `k` is not legal there (R154). -/
  | invalidMode (k d : Nat)
  /-- A sum or product the step needs is not a word (R155). -/
  | arithmeticOverflow
  deriving DecidableEq, Repr

/-- The machine's only memory, in its two tiers (10_state.md R27, 20_memory.md R41). -/
structure Memory where
  /-- The dense array: cell `a` for `a < N`, `N = prog.length`. -/
  prog : List Int
  /-- The overflow map: (address, word) pairs, addresses rising, no word 0 (log entry 4). -/
  ovf  : List (Nat × Int)
  deriving DecidableEq, Repr

/-- The state of one machine (10_state.md R20 to R33). -/
structure State where
  /-- The chip's configuration, which no step writes (00_scope.md R6; log entry 2). -/
  cfg    : Config
  /-- The memory (R27). -/
  mem    : Memory
  /-- The program counter, a non-negative index (R21). -/
  pc     : Nat
  /-- The relative base, signed (R22). -/
  rb     : Int
  /-- The engine status, the halted flag folded in (R23). -/
  status : Status
  /-- Why `status` is `faulted` (R24). -/
  cause  : Option Cause
  /-- The inputs not yet consumed, in order (R31). -/
  inq    : List Int
  /-- Every value emitted so far, oldest first (R31). -/
  outq   : List Int
  deriving DecidableEq, Repr

/-- What the I/O capability answers to `request_input` (42_io.md R111, R114). -/
inductive InReply where
  /-- The next value, and the state with it consumed. -/
  | value (v : Int) (s : State)
  /-- Direct mode, no value left (R111). -/
  | exhausted
  /-- Channel mode, no value has arrived yet (R114). -/
  | pending
  deriving DecidableEq, Repr

/-- Why no step exists (40_step_and_operands.md R92, D23). None of these is a fault of a running
program: those are next states with `status = faulted`. -/
inductive Fault where
  /-- Raised by `step` when `status = halted`: "no further steps execute". Safe (log entry 6). -/
  | noStepHalted
  /-- Raised by `step` when `status = faulted`: "every error is a terminal condition". Safe (log entry 6). -/
  | noStepFaulted
  /-- Raised by `step` when `status = awaitingInput` and no value has arrived: stuck (R114). Safe (log entry 7). -/
  | noStepAwaitingInput
  deriving DecidableEq, Repr

/-- Why an instruction has no meaning. No arm of `exec` answers one. -/
inductive Refusal where
  /-- Raised by an arm of `exec` whose instruction has no meaning yet. Safe. -/
  | notModelled (mnemonic : String)
  deriving DecidableEq, Repr

/-- The three outcomes of a step of this machine. -/
abbrev Result := Host.Outcome State Fault Refusal

/-- The machine right after reset (10_state.md R35) with an empty program and no inputs, at the
suggested configuration (log entries 1 and 9). A program is delivered by `State.load` (R181). -/
def State.reset : State where
  cfg := Config.suggested
  mem := { prog := [], ovf := [] }
  pc := 0
  rb := 0
  status := .running
  cause := none
  inq := []
  outq := []

end Sys2Proof.Machine
end

