-- ==== Sys2Proof/Machine/Ops.lean ====
section
/-! DEFINITION. The shared operations every instruction is written with: the range check, the memory
controller, the I/O capability, fault entry, the writes of `pc`, `rb` and `status`, and reset. -/

namespace Sys2Proof.Machine

/-! ### The memory controller (20_memory.md) -/

/-- The word of the overflow map at `a`; what it does not list reads 0 (R41, R45). -/
def Memory.lookup : List (Nat × Int) → Nat → Int
  | [], _ => 0
  | (k, v) :: rest, a => if a = k then v else Memory.lookup rest a

/-- The overflow map with `a` set to `v`, kept in address order without an entry for the word 0,
which is what an unlisted address reads as (R44; log entry 4). -/
def Memory.update : List (Nat × Int) → Nat → Int → List (Nat × Int)
  | [], a, v => if v = 0 then [] else [(a, v)]
  | (k, u) :: rest, a, v =>
    if a < k then (if v = 0 then (k, u) :: rest else (a, v) :: (k, u) :: rest)
    else if a = k then (if v = 0 then rest else (a, v) :: rest)
    else (k, u) :: Memory.update rest a v

/-- `mem(a)`: the program cell below `N`, else the overflow entry or 0 (R27, R43). -/
def Memory.read (m : Memory) (a : Nat) : Int :=
  if a < m.prog.length then m.prog.getD a 0 else Memory.lookup m.ovf a

/-- The store of one cell; it never resizes the dense array (R41, R44). -/
def Memory.write (m : Memory) (a : Nat) (v : Int) : Memory :=
  if a < m.prog.length then { m with prog := m.prog.set a v }
  else { m with ovf := Memory.update m.ovf a v }

/-- The addresses of an overflow map are strictly rising, all at least `low`, and no entry is 0. -/
def Memory.ovfWf : Nat → List (Nat × Int) → Bool
  | _, [] => true
  | low, (k, v) :: rest => decide (low ≤ k) && decide (v ≠ 0) && Memory.ovfWf (k + 1) rest

/-- The canonical form of memory: the overflow map lists only addresses at or above `N`, in rising
order, and no entry equal to what an unlisted address reads as (R27; log entry 4). -/
def Memory.wf (m : Memory) : Bool := Memory.ovfWf m.prog.length m.ovf

/-- Every cell is a word and every overflow address is at most `MAXADDR` (10_state.md R36 c, e). -/
abbrev Memory.InRange (W : Nat) (m : Memory) : Prop :=
  (∀ v ∈ m.prog, IsWord W v) ∧ (∀ e ∈ m.ovf, IsWord W e.2 ∧ (e.1 : Int) ≤ maxAddr W)

/-! ### The range check -/

/-- `chk(v)` (00_scope.md R8). -/
def State.chk (s : State) (v : Int) : Except Cause Int :=
  if IsWord s.cfg.wordWidth v then .ok v else .error .arithmeticOverflow

/-- An address must not be negative (20_memory.md R46). -/
def checkAddress (a : Int) : Except Cause Int :=
  if a < 0 then .error (.negativeAddress a) else .ok a

/-! ### Memory access -/

/-- `MemRead(a, 1)` (20_memory.md R43). -/
def State.memRead (s : State) (a : Int) : Except Cause Int := do
  let a ← checkAddress a
  return s.mem.read a.toNat

/-- The store of one cell, at an address known not to be negative (20_memory.md R44). -/
def State.store (s : State) (a : Nat) (v : Int) : State := { s with mem := s.mem.write a v }

/-- `MemWrite(a, 1, v)` (20_memory.md R44). -/
def State.memWrite (s : State) (a : Int) (v : Int) : Except Cause State := do
  let a ← checkAddress a
  return s.store a.toNat v

/-! ### Registers -/

/-- `pc <- t`, for a target already known to be an address (R91). -/
def State.setPc (s : State) (t : Int) : State := { s with pc := t.toNat }

/-- `rb <- r` (10_state.md R22). -/
def State.setRb (s : State) (r : Int) : State := { s with rb := r }

/-- `status <- Halted` (46_halt.md R145). -/
def State.setHalted (s : State) : State := { s with status := .halted }

/-- `next = pc + L`, computed in decode and checked before the instruction is applied (R85). -/
def State.fallThrough (s : State) (L : Nat) : Except Cause Int := s.chk ((s.pc : Int) + (L : Int))

/-! ### The I/O capability (42_io.md) -/

/-- `inq <- rest(inq)` (R111). -/
def State.setInq (s : State) (rest : List Int) : State := { s with inq := rest }

/-- `InReq()` (R111). Under the Channel backend `inq` holds the values that have arrived, and an
empty `inq` answers `pending` (R114; log entry 7). -/
def State.inReq (s : State) : InReply :=
  match s.inq with
  | v :: rest => .value v (s.setInq rest)
  | [] =>
    match s.cfg.ioBackend with
    | .direct => .exhausted
    | .channel => .pending

/-- `OutEmit(v)` (R113). -/
def State.outEmit (s : State) (v : Int) : State := { s with outq := s.outq ++ [v] }

/-- The suspended `IN`: "`status = AwaitingInput`, `pc` still at the `IN`, no memory written" (R114). -/
def State.await (s : State) : State := { s with status := .awaitingInput }

/-- The arrival of a value under the Channel backend: an act of the environment (R114; log entry 7). -/
def State.arrive (s : State) (v : Int) : State := { s with inq := s.inq ++ [v] }

/-- A suspended engine takes up its `IN` again: "`status` returns to `Running`" (R114). -/
def State.resume (s : State) : State := { s with status := .running }

/-! ### Faults (60_exceptions.md) -/

/-- Fault entry: "makes exactly two writes: `status <- Faulted`, `cause <- <Cause>(info)`" (R157).
There is no return from a fault (R158, R162). -/
def State.raise (s : State) (c : Cause) : State := { s with status := .faulted, cause := some c }

/-- The end of a step begun in `s`: the state it computed, or `s` with the fault entered (R157). -/
def State.finish (s : State) : Except Cause State → Result
  | .ok t => .next t
  | .error c => .next (s.raise c)

/-- The cause a decode error records (R150). -/
def causeOf : DecodeError → Cause
  | .malformedProgram w => .malformedProgram w
  | .invalidMode k d => .invalidMode k d

/-- A decoder's answer in terms of causes. -/
def liftDecode {α : Type} : Except DecodeError α → Except Cause α
  | .ok a => .ok a
  | .error e => .error (causeOf e)

/-! ### Reset and loading (70_reset_and_hazards.md) -/

/-- Reset: a fresh machine of configuration `cfg` with program `P` and inputs `I` (10_state.md R35,
70_reset_and_hazards.md R181). Nothing of an earlier machine survives (R182). -/
def State.load (cfg : Config) (P I : List Int) : State where
  cfg := cfg
  mem := { prog := P, ovf := [] }
  pc := 0
  rb := 0
  status := .running
  cause := none
  inq := I
  outq := []

end Sys2Proof.Machine
end

