-- ==== Sys2Proof/Machine/Operands.lean ====
section
/-! DEFINITION. Operand resolution, the machine's addressing modes: one mechanism shared by every
instruction (40_step_and_operands.md R86 to R89), and the stages that the four instructions of format
F3 share. -/

namespace Sys2Proof.Machine

/-- The effective address of a Relative operand, `chk(rb + raw[k])` (R86, R87). -/
def State.relativeAddress (s : State) (raw : Int) : Except Cause Int := s.chk (s.rb + raw)

/-- `rd(k)`, the value of a read operand (R86). -/
def State.rd (s : State) (o : Operand) : Except Cause Int :=
  match o.mode with
  | .immediate => .ok o.raw
  | .position => s.memRead o.raw
  | .relative => do
    let a ← s.relativeAddress o.raw
    s.memRead a

/-- `tgt(k)`, the target address of write operand `k` (R87). Decode never yields an Immediate
one (R83); such a term raises the fault R73 gives it (log entry 14). -/
def State.tgt (s : State) (k : Nat) (o : Operand) : Except Cause Int :=
  match o.mode with
  | .immediate => .error (.invalidMode k 1)
  | .position => checkAddress o.raw
  | .relative => do
    let a ← s.relativeAddress o.raw
    checkAddress a

/-- What `ADD`, `MUL`, `LT` and `EQ` share (format F3, 30_encoding.md R65): the fall-through address,
the operands in order, then the result `f a b`, its store and the advance of `pc` (R80, R89, R91). -/
def State.storeResult (s : State) (x y t : Operand) (f : Int → Int → Except Cause Int) :
    Except Cause State := do
  let next ← s.fallThrough 4
  let a ← s.rd x
  let b ← s.rd y
  let addr ← s.tgt 3 t
  let v ← f a b
  let s' ← s.memWrite addr v
  return s'.setPc next

end Sys2Proof.Machine
end

