-- ==== Sys2Proof/Machine/Flags.lean ====
section
/-! DEFINITION. Flags and truth values. The machine has no condition codes and no arithmetic flags;
its one flag is the halted flag (10_state.md R23, R26). A comparison's result is a word (44_compare.md
R132). -/

namespace Sys2Proof.Machine

/-- The halted flag: the predicate `status = Halted` (R23). A faulted machine is not halted. -/
def State.haltedFlag (s : State) : Bool := decide (s.status = .halted)

/-- The word of a truth value: 1 for true and 0 for false (R132). -/
def truthWord (p : Bool) : Int := if p then 1 else 0

/-- "a jump treats 0 as false and every other word as true" (R132). -/
def isTrueWord (v : Int) : Bool := decide (v ≠ 0)

end Sys2Proof.Machine
end

