-- ==== Sys2Proof/Machine/Arithmetic.lean ====
section
/-! DEFINITION. `ADD` and `MUL` (41_arithmetic.md R100 to R102). -/

namespace Sys2Proof.Machine

/-- `ADD`: target gets op1 + op2, `ArithmeticOverflow` if the sum is not a word (R100). -/
def execAdd (x y t : Operand) (s : State) : Result :=
  s.finish (s.storeResult x y t fun a b => s.chk (a + b))

/-- `MUL`: target gets op1 times op2, `ArithmeticOverflow` if the product is not a word (R101). -/
def execMul (x y t : Operand) (s : State) : Result :=
  s.finish (s.storeResult x y t fun a b => s.chk (a * b))

end Sys2Proof.Machine
end

