-- ==== Sys2Proof/Machine/Compare.lean ====
section
/-! DEFINITION. `LT` and `EQ` (44_compare.md R130 to R132). The comparison itself cannot fault. -/

namespace Sys2Proof.Machine

/-- `LT`: target gets 1 if op1 < op2, both signed, else 0 (R130). -/
def execLt (x y t : Operand) (s : State) : Result :=
  s.finish (s.storeResult x y t fun a b => .ok (truthWord (decide (a < b))))

/-- `EQ`: target gets 1 if op1 = op2 else 0 (R131). -/
def execEq (x y t : Operand) (s : State) : Result :=
  s.finish (s.storeResult x y t fun a b => .ok (truthWord (decide (a = b))))

end Sys2Proof.Machine
end

