-- ==== Sys2Proof/Machine/Halt.lean ====
section
/-! DEFINITION. `HALT` (46_halt.md R145). -/

namespace Sys2Proof.Machine

/-- `HALT`: `status` gets `Halted`, and `pc` still advances by 1 (R145, D8; log entry 15). -/
def execHalt (s : State) : Result :=
  s.finish do
    let next ← s.fallThrough 1
    return s.setHalted.setPc next

end Sys2Proof.Machine
end

