-- ==== Sys2Proof/Machine/InputOutput.lean ====
section
/-! DEFINITION. `IN` and `OUT` (42_io.md R110 to R114). They are written against the two operations
of the I/O capability only (R115). -/

namespace Sys2Proof.Machine

/-- `IN`: the target is resolved before any input is requested; then the next input is stored
there (R110). With no input yet under the Channel backend the step is suspended (R114). -/
def execIn (t : Operand) (s : State) : Result :=
  s.finish do
    let next ← s.fallThrough 2
    let addr ← s.tgt 1 t
    match s.inReq with
    | .value v s' => do
      let s'' ← s'.memWrite addr v
      return s''.setPc next
    | .exhausted => .error .inputExhausted
    | .pending => return s.await

/-- `OUT`: emits the value of its operand (R112). -/
def execOut (x : Operand) (s : State) : Result :=
  s.finish do
    let next ← s.fallThrough 2
    let v ← s.rd x
    return (s.outEmit v).setPc next

end Sys2Proof.Machine
end

