-- ==== Sys2Proof/Machine/Jump.lean ====
section
/-! DEFINITION. `JT` and `JF` (43_jump.md R120 to R123). -/

namespace Sys2Proof.Machine

/-- What the two jumps share (format F2): both operands are resolved whether or not the jump is
taken (R89); a taken jump to a negative target faults in its own step (R123). -/
def State.jumpIf (s : State) (x y : Operand) (taken : Int → Bool) : Except Cause State := do
  let next ← s.fallThrough 3
  let a ← s.rd x
  let b ← s.rd y
  if taken a then do
    let target ← checkAddress b
    return s.setPc target
  else return s.setPc next

/-- `JT`: jumps to op2 if op1 is not 0 (R120). -/
def execJt (x y : Operand) (s : State) : Result := s.finish (s.jumpIf x y fun a => isTrueWord a)

/-- `JF`: jumps to op2 if op1 is 0 (R121). -/
def execJf (x y : Operand) (s : State) : Result := s.finish (s.jumpIf x y fun a => !isTrueWord a)

end Sys2Proof.Machine
end

