-- ==== Sys2Proof/Machine/RelativeBase.lean ====
section
/-! DEFINITION. `ARB`, the only instruction that writes the relative base (45_relative_base.md R140). -/

namespace Sys2Proof.Machine

/-- `ARB`: `rb` gets `rb` + op1, the operand read with the old base; `ArithmeticOverflow` if the
sum is not a word (R140). -/
def execArb (x : Operand) (s : State) : Result :=
  s.finish do
    let next ← s.fallThrough 2
    let a ← s.rd x
    let r ← s.chk (s.rb + a)
    return (s.setRb r).setPc next

end Sys2Proof.Machine
end

