-- ==== Sys2Proof/Machine/Dispatch.lean ====
section
/-! DEFINITION. Dispatch to exactly one handler per opcode (40_step_and_operands.md R90). -/

namespace Sys2Proof.Machine

def exec (i : Instr) (s : State) : Host.Outcome State Fault Refusal :=
  match i with
  | .add x y t => Sys2Proof.Machine.execAdd x y t s
  | .mul x y t => Sys2Proof.Machine.execMul x y t s
  | .inp t => Sys2Proof.Machine.execIn t s
  | .out x => Sys2Proof.Machine.execOut x s
  | .jt x y => Sys2Proof.Machine.execJt x y s
  | .jf x y => Sys2Proof.Machine.execJf x y s
  | .lt x y t => Sys2Proof.Machine.execLt x y t s
  | .eq x y t => Sys2Proof.Machine.execEq x y t s
  | .arb x => Sys2Proof.Machine.execArb x s
  | .halt => Sys2Proof.Machine.execHalt s

end Sys2Proof.Machine
end

