-- ==== Sys2Proof/Machine/Fetch.lean ====
section
/-! DEFINITION. Stage 1 of a step: fetch and decode (40_step_and_operands.md R80 to R84), and the four
stages together for an engine that is running. -/

namespace Sys2Proof.Machine

/-- The `n` cells from address `a` on, each through `chk` and `MemRead`, in increasing order (R84). -/
def State.readCells (s : State) (a : Int) : Nat → Except Cause (List Int)
  | 0 => .ok []
  | n + 1 => do
    let a' ← s.chk a
    let v ← s.memRead a'
    let rest ← s.readCells (a + 1) n
    return v :: rest

/-- Fetch and decode at `pc`: the instruction word, the checks on it, then exactly as many operand
cells as the opcode has (R81 to R84). The length check of R85 is each instruction's first stage. -/
def State.fetch (s : State) : Except Cause Instr := do
  let w ← s.memRead (s.pc : Int)
  let h ← liftDecode (decodeHeader w)
  let cells ← s.readCells ((s.pc : Int) + 1) h.op.arity
  return h.assemble cells

/-- One step of a running engine (R80). -/
def State.runInstruction (s : State) : Result :=
  match s.fetch with
  | .ok i => exec i s
  | .error c => .next (s.raise c)

/-- The cells `vs` written to the addresses from `a` on. -/
def Memory.writeCells (m : Memory) (a : Nat) : List Int → Memory
  | [] => m
  | v :: vs => (m.write a v).writeCells (a + 1) vs

end Sys2Proof.Machine
end

