-- ==== Sys2Proof/Machine/Step.lean ====
section
/-! DEFINITION. One step of the machine (40_step_and_operands.md R80, R92), and the placing of an
instruction where the next step fetches it. -/

namespace Sys2Proof.Machine

/-- One step. It exists only while the engine is running (R80, R92); a suspended engine takes up its
`IN` again when a value has arrived (R114; log entry 7). -/
def step (s : State) : Host.Outcome State Fault Refusal :=
  match s.status with
  | .running => s.runInstruction
  | .awaitingInput => if s.inq = [] then .fault .noStepAwaitingInput else s.resume.runInstruction
  | .halted => .fault .noStepHalted
  | .faulted => .fault .noStepFaulted

/-- `s` with the instruction whose bits are `w` stored at `pc` and the engine running, so that the
next step fetches and runs it. It stands for the delivery of a program from outside (log entries 9
and 10). -/
def State.withFetchWord (s : State) (nbits w : Nat) : State :=
  { s with
    mem := s.mem.writeCells s.pc (cellsOfBits s.cfg.wordWidth nbits w)
    status := .running }

end Sys2Proof.Machine
end

