-- ==== Sys2Proof/Machine/Loader.lean ====
section
/-! DEFINITION. The loader: the program text and its errors (70_reset_and_hazards.md R184, R185). -/

namespace Sys2Proof.Machine

/-- The one load-time error: a token that is not an integer, "`MalformedProgram` at load; no machine
is constructed" (R185). -/
inductive LoadError where
  | malformedProgram
  deriving DecidableEq, Repr

/-- The value of a base-10 digit, most significant digit first (R184). -/
def digitsValue : Nat → List Char → Option Nat
  | acc, [] => some acc
  | acc, c :: rest =>
    if 48 ≤ c.toNat ∧ c.toNat ≤ 57 then digitsValue (10 * acc + (c.toNat - 48)) rest else none

/-- `digit {digit}` (R184): at least one digit. -/
def naturalValue : List Char → Option Nat
  | [] => none
  | c :: rest => digitsValue 0 (c :: rest)

/-- `["-"] digit {digit}`, a value that is a word (R184). -/
def parseToken (W : Nat) (token : List Char) : Except LoadError Int :=
  let value : Option Int :=
    match token with
    | '-' :: rest => (naturalValue rest).map fun n : Nat => -(n : Int)
    | _ => (naturalValue token).map fun n : Nat => (n : Int)
  match value with
  | some v => if IsWord W v then .ok v else .error .malformedProgram
  | none => .error .malformedProgram

/-- The tokens between the commas; an empty line is one empty token (R184, D17). -/
def splitTokens : List Char → List (List Char)
  | [] => [[]]
  | c :: rest =>
    if c = ',' then [] :: splitTokens rest
    else match splitTokens rest with
      | [] => [[c]]
      | token :: tokens => (c :: token) :: tokens

/-- The text without one trailing line terminator, the character 10 (R184; log entry 11). -/
def stripTerminator : List Char → List Char
  | [] => []
  | [c] => if c.toNat = 10 then [] else [c]
  | c :: d :: rest => c :: stripTerminator (d :: rest)

/-- Every token in turn; the first that is not an integer ends the load (R185). -/
def parseTokens (W : Nat) : List (List Char) → Except LoadError (List Int)
  | [] => .ok []
  | token :: rest => do
    let v ← parseToken W token
    let vs ← parseTokens W rest
    return v :: vs

/-- The program of a program text (R184). -/
def parseProgram (W : Nat) (text : List Char) : Except LoadError (List Int) :=
  parseTokens W (splitTokens (stripTerminator text))

/-- A machine constructed from a program text and inputs, or no machine at all (R180, R185). -/
def loadText (cfg : Config) (text : List Char) (I : List Int) : Except LoadError State := do
  let P ← parseProgram cfg.wordWidth text
  return State.load cfg P I

end Sys2Proof.Machine
end

