-- ==== Sys2Proof/Machine/Signals.lean ====
section
/-! DEFINITION. The step signals of IF-STATUS (10_state.md R34): outputs only, a function of the state
the step begins in. No rule reads one. -/

namespace Sys2Proof.Machine

/-- The signals of R34. -/
inductive Signal where
  | halt
  | jump
  | needsInput
  | producedOutput (v : Int)
  | none
  | fault (c : Cause)
  deriving DecidableEq, Repr

/-- The signal of a step in which `i` runs to its end (R34): a taken jump signals even where its
target is the next instruction (43_jump.md R120). -/
def completedSignal (i : Instr) (s : State) : Signal :=
  match i with
  | .add _ _ _ => .none
  | .mul _ _ _ => .none
  | .inp _ => .needsInput
  | .out x => match s.rd x with
    | .ok v => .producedOutput v
    | .error c => .fault c
  | .jt x _ => match s.rd x with
    | .ok a => if isTrueWord a then .jump else .none
    | .error c => .fault c
  | .jf x _ => match s.rd x with
    | .ok a => if isTrueWord a then .none else .jump
    | .error c => .fault c
  | .lt _ _ _ => .none
  | .eq _ _ _ => .none
  | .arb _ => .none
  | .halt => .halt

/-- The signal of the step begun in `s`, where there is one: a step that is abandoned signals its
fault (R34; log entry 8). -/
def stepSignal (s : State) : Option Signal :=
  match step s with
  | .next t =>
    match t.status, t.cause with
    | .faulted, some c => some (.fault c)
    | _, _ =>
      match s.fetch with
      | .ok i => some (completedSignal i s)
      | .error c => some (.fault c)
  | .fault _ => Option.none
  | .refused _ => Option.none

end Sys2Proof.Machine
end

