-- ==== Sys2Proof/Safety.lean ====
section
/-! DEFINITION. The terms in which claims are stated: the invariant of every reachable state
(10_state.md R36), runs from reset (40_step_and_operands.md R92), the end of a run (46_halt.md R146),
what may be observed of it (00_scope.md R13, 70_reset_and_hazards.md R188), what an instruction is about
to store, and the grammar of the program text (70_reset_and_hazards.md R184). -/

namespace Sys2Proof.Machine

/-- Every element of a sequence is a word. -/
abbrev AllWords (W : Nat) (vs : List Int) : Prop := ∀ v ∈ vs, IsWord W v

/-- The engine is suspended only in an `IN` whose target is an address (42_io.md R114). -/
def State.SuspendedInIn (s : State) : Prop :=
  ∃ t next addr, s.fetch = .ok (.inp t) ∧ s.fallThrough 2 = .ok next ∧ s.tgt 1 t = .ok addr

/-- The invariant of R36 (a) to (c) and (e), with the model's canonical memory, and with what R23, R24
and R114 say of `status` and `cause`. The range of `pc` below is its type. -/
structure State.Inv (s : State) : Prop where
  config   : s.cfg.Valid
  pc       : (s.pc : Int) ≤ maxAddr s.cfg.wordWidth
  rb       : IsWord s.cfg.wordWidth s.rb
  memWf    : s.mem.wf = true
  memRange : s.mem.InRange s.cfg.wordWidth
  inq      : AllWords s.cfg.wordWidth s.inq
  outq     : AllWords s.cfg.wordWidth s.outq
  cause    : s.cause.isSome = true ↔ s.status = .faulted
  direct   : s.cfg.ioBackend = .direct → s.status ≠ .awaitingInput
  awaiting : s.status = .awaitingInput → s.SuspendedInIn

/-- `t` comes after some number of steps from `s` (R92). -/
inductive Reaches (s : State) : State → Prop where
  | refl : Reaches s s
  | tail {t u : State} : Reaches s t → step t = .next u → Reaches s u

/-- "A run has ended normally exactly when `status = Halted`" (R146). -/
abbrev State.Final (s : State) : Prop := s.status = .halted

/-- No further step exists, whatever arrives (R92). -/
abbrev State.Terminal (s : State) : Prop := s.status = .halted ∨ s.status = .faulted

/-- What a claim may observe of a machine: `(status, outq, mem)` (R13), memory by its cells, since
the tier of a cell cannot be observed (10_state.md R27). -/
structure Observation where
  status : Status
  outq   : List Int
  cell   : Nat → Int

/-- The observation of a state (R13, R188). -/
def State.observe (s : State) : Observation :=
  { status := s.status, outq := s.outq, cell := fun a => s.mem.read a }

/-- The cause of a check that fails. -/
def errorOf {α : Type} : Except Cause α → Option Cause
  | .ok _ => none
  | .error c => some c

/-- The first failing check of a list in its order: the one a step reports (60_exceptions.md R156). -/
def firstError : List (Option Cause) → Option Cause
  | [] => none
  | some c :: _ => some c
  | none :: rest => firstError rest

/-- Two states that agree on everything but how memory is split into its two tiers (R27). -/
structure State.Alike (s t : State) : Prop where
  cfg    : s.cfg = t.cfg
  mem    : ∀ a, s.mem.read a = t.mem.read a
  pc     : s.pc = t.pc
  rb     : s.rb = t.rb
  status : s.status = t.status
  cause  : s.cause = t.cause
  inq    : s.inq = t.inq
  outq   : s.outq = t.outq

/-- What an instruction with a write operand is about to store, and where: its operands resolve, its
target is `addr` and its result the word `v` (R100, R101, R110, R130, R131). The other five store
nothing. -/
def StoresWord (i : Instr) (s : State) (addr v : Int) : Prop :=
  match i with
  | .add x y t => ∃ a b, s.rd x = .ok a ∧ s.rd y = .ok b ∧ s.tgt 3 t = .ok addr ∧ v = a + b ∧
      IsWord s.cfg.wordWidth v
  | .mul x y t => ∃ a b, s.rd x = .ok a ∧ s.rd y = .ok b ∧ s.tgt 3 t = .ok addr ∧ v = a * b ∧
      IsWord s.cfg.wordWidth v
  | .inp t => s.tgt 1 t = .ok addr ∧ ∃ rest, s.inq = v :: rest
  | .out _ => False
  | .jt _ _ => False
  | .jf _ _ => False
  | .lt x y t => ∃ a b, s.rd x = .ok a ∧ s.rd y = .ok b ∧ s.tgt 3 t = .ok addr ∧
      v = if a < b then 1 else 0
  | .eq x y t => ∃ a b, s.rd x = .ok a ∧ s.rd y = .ok b ∧ s.tgt 3 t = .ok addr ∧
      v = if a = b then 1 else 0
  | .arb _ => False
  | .halt => False

/-- The cells as they read once `v` is stored at `addr` (20_memory.md R44). -/
def State.cellsStoring (s : State) (addr v : Int) (a : Nat) : Int :=
  if (a : Int) = addr then v else s.mem.read a

/-! ### The program text, as its grammar gives it (70_reset_and_hazards.md R184) -/

/-- `digit`. -/
def digitChar (d : Fin 10) : Char := ['0', '1', '2', '3', '4', '5', '6', '7', '8', '9'][d]

/-- `integer`: whether it has the minus sign, and its digits, most significant first. -/
structure Token where
  negative : Bool
  digits   : List (Fin 10)
  deriving DecidableEq, Repr

/-- How an `integer` is written. -/
def Token.text (t : Token) : List Char :=
  if t.negative then '-' :: t.digits.map digitChar else t.digits.map digitChar

/-- The value of digits in base 10, each times its own power. -/
def placeValue : List (Fin 10) → Nat
  | [] => 0
  | d :: ds => d * 10 ^ ds.length + placeValue ds

/-- The value of an `integer`. -/
def Token.value (t : Token) : Int := if t.negative then -(placeValue t.digits : Int) else placeValue t.digits

/-- The grammar's `digit {digit}` and the range of R184. -/
def Token.Legal (W : Nat) (t : Token) : Prop := t.digits ≠ [] ∧ IsWord W t.value

/-- `line`: the integers with a comma between each two. -/
def lineText : List Token → List Char
  | [] => []
  | [t] => t.text
  | t :: u :: ts => t.text ++ ',' :: lineText (u :: ts)

/-- `text` is the line of the integers `tokens`, with or without the one line terminator that R184 accepts
(the line feed: log entry 11). -/
def IsLineOf (W : Nat) (tokens : List Token) (text : List Char) : Prop :=
  tokens ≠ [] ∧ (∀ t ∈ tokens, t.Legal W) ∧ (text = lineText tokens ∨ text = lineText tokens ++ ['\n'])

end Sys2Proof.Machine
end

