-- ==== Sys2Proof/Certificates/Slice0/Obligations.lean ====
section
/-! DEFINITION. The statements for the provers, one `def Obligations.<Name> : Prop` each. Rules R<n>
are those of spec/. Where a clause rests on a decision D<n> or an inference that the spec marks as its
own, or on a choice of the model, the docstring says so. Every statement holds for every word width. -/

open Sys2Proof Sys2Proof.Machine

/-! ### Encoding and decoding (30_encoding.md) -/

/-- Decoding the canonical encoding of a well-formed instruction gives it back, whatever cells follow
it (the content of R78, which the spec marks as derived). -/
def Obligations.DecodeOfEncodeIsIdentity : Prop :=
  ∀ (W : Nat) (i : Instr) (rest : List Int), i.wf W = true → decode (encode i ++ rest) = .ok i

/-- The opcode is the word's low two digits, and the hundreds, thousands and ten-thousands digits are the
modes of operands 1, 2 and 3 (R61); the operand's cell is taken whole (R67). That a word that decodes
is not negative is the spec's decision D5 (R71, log entry 14); past the end of a short list `rawAt`
reads 0 (log entry 12, DEDUCED). -/
def Obligations.DecodeSplitsWordByDecimalDigits : Prop :=
  ∀ (w : Int) (cells : List Int) (i : Instr), decode (w :: cells) = .ok i →
    0 ≤ w ∧ (i.opcode.code : Int) = w % 100 ∧
    ∀ k o, i.operands[k]? = some o →
      (o.mode.digit : Int) = w / 10 ^ (k + 2) % 10 ∧ o.raw = rawAt cells k

/-- Every word with a legal opcode, mode digits 0 to 2 and a write operand not Immediate is an
instruction, whatever its other digits (R74; D3, D4 and D6 are the spec's own decisions). -/
def Obligations.WordOfLegalDigitsDecodes : Prop :=
  ∀ (w : Int) (cells : List Int) (op : Opcode), 0 ≤ w → w % 100 = op.code →
    (∀ k, k < 3 → w / 10 ^ (k + 2) % 10 ≤ 2) →
    (∀ k, op.writePos = some k → w / 10 ^ (k + 1) % 10 ≠ 1) →
    ∃ i, decode (w :: cells) = .ok i ∧ i.opcode = op

/-- Words of the spec's vectors V-DEC and V-ENC decode to the instructions they stand for. -/
def Obligations.SpecVectorsDecode : Prop :=
  decode [20101, 5, 6, 7] = .ok (.add ⟨.immediate, 5⟩ ⟨.position, 6⟩ ⟨.relative, 7⟩) ∧
  decode [1202, -1, 3, 0] = .ok (.mul ⟨.relative, -1⟩ ⟨.immediate, 3⟩ ⟨.position, 0⟩) ∧
  decode [203, 0] = .ok (.inp ⟨.relative, 0⟩) ∧
  decode [104, -5] = .ok (.out ⟨.immediate, -5⟩) ∧
  decode [1205, 2, 0] = .ok (.jt ⟨.relative, 2⟩ ⟨.immediate, 0⟩) ∧
  decode [106, 0, 9] = .ok (.jf ⟨.immediate, 0⟩ ⟨.position, 9⟩) ∧
  decode [7, 1, 2, 3] = .ok (.lt ⟨.position, 1⟩ ⟨.position, 2⟩ ⟨.position, 3⟩) ∧
  decode [1108, -1, 8, 3] = .ok (.eq ⟨.immediate, -1⟩ ⟨.immediate, 8⟩ ⟨.position, 3⟩) ∧
  decode [209, 0] = .ok (.arb ⟨.relative, 0⟩) ∧
  decode [1000099] = .ok .halt ∧
  decode [103, 0] = .error (.invalidMode 1 1) ∧
  decode [93001] = .error (.invalidMode 2 3) ∧
  decode [-199] = .error (.malformedProgram (-199))

/-- An instruction is `1 + n` cells long, which its opcode fixes, and a step that completes without
jumping advances `pc` by that length (R64, R91). For `HALT` the advance is the spec's decision D8 (R91,
R145; log entry 15; U15 says that claims should not read `pc` in a halted state); that a suspended `IN`
is left out is log entry 7. -/
def Obligations.LengthIsOnePlusOperandsAndAdvancesPc : Prop :=
  (∀ i : Instr, i.length = 1 + i.operands.length ∧ (encode i).length = i.length ∧
    i.length = (match i.opcode with
      | .halt => 1
      | .inp => 2 | .out => 2 | .arb => 2
      | .jt => 3 | .jf => 3
      | .add => 4 | .mul => 4 | .lt => 4 | .eq => 4)) ∧
  (∀ (i : Instr) (s u : State), s.status = .running → s.fetch = .ok i → step s = .next u →
    u.status ≠ .faulted → u.status ≠ .awaitingInput →
    (∀ x y a, i = .jt x y → s.rd x = .ok a → a = 0) →
    (∀ x y a, i = .jf x y → s.rd x = .ok a → a ≠ 0) →
    u.pc = s.pc + i.length)

/-- R70: a word whose low two digits are none of the ten opcodes, when executed, raises
`MalformedProgram` with that word. -/
def Obligations.UnknownOpcodeRaisesMalformedProgram : Prop :=
  ∀ (s : State), s.status = .running → 0 ≤ s.mem.read s.pc →
    s.mem.read s.pc % 100 ∉ ([1, 2, 3, 4, 5, 6, 7, 8, 9, 99] : List Int) →
    step s = .next (s.raise (.malformedProgram (s.mem.read s.pc)))

/-- The decode faults that rest on the spec's decisions D3, D4, D5 and D10 (R71 to R73, R83): a negative
word, then the lowest mode digit above 2, then Immediate on the write operand. -/
def Obligations.IllegalWordsFaultInDecodeOrder : Prop :=
  ∀ (s : State) (w : Int), s.status = .running → s.mem.read s.pc = w →
    (w < 0 → step s = .next (s.raise (.malformedProgram w))) ∧
    (∀ op : Opcode, 0 ≤ w → w % 100 = op.code →
      (∀ k, 1 ≤ k → k ≤ 3 → 2 < dig w.toNat (k + 1) → (∀ j, 1 ≤ j → j < k → dig w.toNat (j + 1) ≤ 2) →
        step s = .next (s.raise (.invalidMode k (dig w.toNat (k + 1))))) ∧
      ((∀ k, 1 ≤ k → k ≤ 3 → dig w.toNat (k + 1) ≤ 2) →
        ∀ k, op.writePos = some k → dig w.toNat (k + 1) = 1 →
          step s = .next (s.raise (.invalidMode k 1))))

/-! ### The step (40_step_and_operands.md) -/

/-- When the cells from `pc` on decode to `i`, the step of a running engine is `exec i`; so is the
step that takes up a suspended `IN` again, from the resumed state (log entry 7). -/
def Obligations.StepRunsTheDecodedInstruction : Prop :=
  ∀ (s : State) (i : Instr),
    decode [s.mem.read s.pc, s.mem.read (s.pc + 1), s.mem.read (s.pc + 2), s.mem.read (s.pc + 3)] = .ok i →
    (s.status = .running → step s = exec i s) ∧
    (s.status = .awaitingInput → s.inq ≠ [] → step s = exec i s.resume)

/-- A running engine always has a next state; a halted or faulted machine has no step, and a
suspended one has none until a value arrives (R92; D23 is the spec's decision, log entries 6 and 7). -/
def Obligations.StepExistsExactlyWhileRunning : Prop :=
  ∀ s : State,
    (s.status = .running → ∃ u, step s = .next u) ∧
    (s.status = .halted → step s = .fault .noStepHalted) ∧
    (s.status = .faulted → step s = .fault .noStepFaulted) ∧
    (s.status = .awaitingInput → s.inq = [] → step s = .fault .noStepAwaitingInput) ∧
    (s.status = .awaitingInput → s.inq ≠ [] → ∃ u, step s = .next u)

/-- Fetching and reading operand cells never raises `NegativeAddress` or `InputExhausted` (R81, R84,
R152; rests on D7, which keeps `pc` non-negative). -/
def Obligations.FetchRaisesNoAddressFault : Prop :=
  ∀ (s : State) (c : Cause), s.fetch = .error c →
    c = .malformedProgram (s.mem.read s.pc) ∨ (∃ k d, c = .invalidMode k d) ∨
      (c = .arithmeticOverflow ∧ maxAddr s.cfg.wordWidth < (s.pc : Int) + 3)

/-- `next = pc + L` is the fall-through address when it is an address, and an overflow fault of every
instruction otherwise, a jump that would be taken included (R85; D2 and D14 are the spec's decisions). -/
def Obligations.FallThroughAboveMaxAddrFaults : Prop :=
  ∀ (i : Instr) (s : State), maxAddr s.cfg.wordWidth < (s.pc : Int) + i.length →
    exec i s = .next (s.raise .arithmeticOverflow)

/-- `rd(k)`: Immediate gives the cell itself, Position the cell it names, Relative the cell at
`rb + raw` (R86; the overflow of that sum is the spec's decision D2). -/
def Obligations.ReadOperandResolution : Prop :=
  ∀ (s : State) (r : Int),
    s.rd ⟨.immediate, r⟩ = .ok r ∧
    (0 ≤ r → s.rd ⟨.position, r⟩ = .ok (s.mem.read r.toNat)) ∧
    (r < 0 → s.rd ⟨.position, r⟩ = .error (.negativeAddress r)) ∧
    (¬ IsWord s.cfg.wordWidth (s.rb + r) → s.rd ⟨.relative, r⟩ = .error .arithmeticOverflow) ∧
    (IsWord s.cfg.wordWidth (s.rb + r) → s.rb + r < 0 →
      s.rd ⟨.relative, r⟩ = .error (.negativeAddress (s.rb + r))) ∧
    (IsWord s.cfg.wordWidth (s.rb + r) → 0 ≤ s.rb + r →
      s.rd ⟨.relative, r⟩ = .ok (s.mem.read (s.rb + r).toNat))

/-- `tgt(k)`: Position gives the cell's own value, Relative `rb + raw`, and a negative address faults
here (R87; the overflow is D2 and the early check D10: the spec's decisions, log entries 5 and 16). R87
gives `tgt` no Immediate case: the last clause is the model's DESIGN CHOICE (log entry 14). -/
def Obligations.WriteTargetResolution : Prop :=
  ∀ (s : State) (k : Nat) (r : Int),
    (0 ≤ r → s.tgt k ⟨.position, r⟩ = .ok r) ∧
    (r < 0 → s.tgt k ⟨.position, r⟩ = .error (.negativeAddress r)) ∧
    (¬ IsWord s.cfg.wordWidth (s.rb + r) → s.tgt k ⟨.relative, r⟩ = .error .arithmeticOverflow) ∧
    (IsWord s.cfg.wordWidth (s.rb + r) → s.rb + r < 0 →
      s.tgt k ⟨.relative, r⟩ = .error (.negativeAddress (s.rb + r))) ∧
    (IsWord s.cfg.wordWidth (s.rb + r) → 0 ≤ s.rb + r → s.tgt k ⟨.relative, r⟩ = .ok (s.rb + r)) ∧
    s.tgt k ⟨.immediate, r⟩ = .error (.invalidMode k 1)

/-! ### Memory (20_memory.md) -/

/-- R43: a read fails only below 0; it gives the program cell below `N`, else the overflow entry, else
0. -/
def Obligations.MemReadGivesCellEntryOrZero : Prop :=
  ∀ (s : State), s.mem.wf = true →
    (∀ a : Int, a < 0 → s.memRead a = .error (.negativeAddress a)) ∧
    (∀ (a : Nat) (h : a < s.mem.prog.length), s.memRead a = .ok (s.mem.prog[a])) ∧
    (∀ (a : Nat) (v : Int), (a, v) ∈ s.mem.ovf → s.memRead a = .ok v) ∧
    (∀ a : Nat, s.mem.prog.length ≤ a → (∀ v, (a, v) ∉ s.mem.ovf) → s.memRead a = .ok 0)

/-- A write fails only below 0; the cell written reads back, every other cell reads as before, the dense
array keeps its length, and nothing but memory changes (R44, whose two laws the spec marks as derived
from its pseudocode and R43). -/
def Obligations.MemWriteReadsBackAndFrames : Prop :=
  ∀ (s : State) (a : Int) (v : Int), s.mem.wf = true →
    (a < 0 → s.memWrite a v = .error (.negativeAddress a)) ∧
    (0 ≤ a → ∃ m : Memory, s.memWrite a v = .ok { s with mem := m } ∧
      m.read a.toNat = v ∧ (∀ b : Nat, b ≠ a.toNat → m.read b = s.mem.read b) ∧
      m.prog.length = s.mem.prog.length)

/-! ### The ten instructions -/

/-- `ADD` (R100): its checks in order, then the exact sum stored at the target and `pc` advanced by
4, all else unchanged. That a sum which is no word faults is the spec's decision D2.
The order of checks is the spec's decision D10 (log entry 16), the overflow of the fall-through address
D2 and D14 (R85), that of a Relative address D2 (log entry 5); for an Immediate target, which decode
never yields, `tgt` faulting after the read operands is the model's DESIGN CHOICE (log entry 14). -/
def Obligations.AddStoresSum : Prop :=
  ∀ (s : State) (x y t : Operand),
    (∀ c, firstError [errorOf (s.fallThrough 4), errorOf (s.rd x), errorOf (s.rd y), errorOf (s.tgt 3 t)]
        = some c → exec (.add x y t) s = .next (s.raise c)) ∧
    (∀ a b addr, (s.pc : Int) + 4 ≤ maxAddr s.cfg.wordWidth → s.rd x = .ok a → s.rd y = .ok b →
      s.tgt 3 t = .ok addr →
      (IsWord s.cfg.wordWidth (a + b) → exec (.add x y t) s =
        .next { s with mem := s.mem.write addr.toNat (a + b), pc := s.pc + 4 }) ∧
      (¬ IsWord s.cfg.wordWidth (a + b) →
        exec (.add x y t) s = .next (s.raise .arithmeticOverflow)))

/-- `MUL` (R101): its checks in order, then the exact product stored at the target and `pc` advanced
by 4, all else unchanged. That a product which is no word faults is the spec's decision D2.
The order of checks is the spec's decision D10 (log entry 16), the overflow of the fall-through address
D2 and D14 (R85), that of a Relative address D2 (log entry 5); for an Immediate target, which decode
never yields, `tgt` faulting after the read operands is the model's DESIGN CHOICE (log entry 14). -/
def Obligations.MulStoresProduct : Prop :=
  ∀ (s : State) (x y t : Operand),
    (∀ c, firstError [errorOf (s.fallThrough 4), errorOf (s.rd x), errorOf (s.rd y), errorOf (s.tgt 3 t)]
        = some c → exec (.mul x y t) s = .next (s.raise c)) ∧
    (∀ a b addr, (s.pc : Int) + 4 ≤ maxAddr s.cfg.wordWidth → s.rd x = .ok a → s.rd y = .ok b →
      s.tgt 3 t = .ok addr →
      (IsWord s.cfg.wordWidth (a * b) → exec (.mul x y t) s =
        .next { s with mem := s.mem.write addr.toNat (a * b), pc := s.pc + 4 }) ∧
      (¬ IsWord s.cfg.wordWidth (a * b) →
        exec (.mul x y t) s = .next (s.raise .arithmeticOverflow)))

/-- `LT` (R130): its checks in order, then 1 if op1 < op2 else 0 stored at the target and `pc`
advanced by 4, all else unchanged; the comparison cannot fault.
The order of checks is the spec's decision D10 (log entry 16), the overflow of the fall-through address
D2 and D14 (R85), that of a Relative address D2 (log entry 5); for an Immediate target, which decode
never yields, `tgt` faulting after the read operands is the model's DESIGN CHOICE (log entry 14). -/
def Obligations.LtStoresTruthOfLess : Prop :=
  ∀ (s : State) (x y t : Operand),
    (∀ c, firstError [errorOf (s.fallThrough 4), errorOf (s.rd x), errorOf (s.rd y), errorOf (s.tgt 3 t)]
        = some c → exec (.lt x y t) s = .next (s.raise c)) ∧
    (∀ a b addr, (s.pc : Int) + 4 ≤ maxAddr s.cfg.wordWidth → s.rd x = .ok a → s.rd y = .ok b →
      s.tgt 3 t = .ok addr →
      exec (.lt x y t) s =
        .next { s with mem := s.mem.write addr.toNat (if a < b then 1 else 0), pc := s.pc + 4 })

/-- `EQ` (R131): its checks in order, then 1 if op1 = op2 else 0 stored at the target and `pc`
advanced by 4, all else unchanged; the comparison cannot fault.
The order of checks is the spec's decision D10 (log entry 16), the overflow of the fall-through address
D2 and D14 (R85), that of a Relative address D2 (log entry 5); for an Immediate target, which decode
never yields, `tgt` faulting after the read operands is the model's DESIGN CHOICE (log entry 14). -/
def Obligations.EqStoresTruthOfEqual : Prop :=
  ∀ (s : State) (x y t : Operand),
    (∀ c, firstError [errorOf (s.fallThrough 4), errorOf (s.rd x), errorOf (s.rd y), errorOf (s.tgt 3 t)]
        = some c → exec (.eq x y t) s = .next (s.raise c)) ∧
    (∀ a b addr, (s.pc : Int) + 4 ≤ maxAddr s.cfg.wordWidth → s.rd x = .ok a → s.rd y = .ok b →
      s.tgt 3 t = .ok addr →
      exec (.eq x y t) s =
        .next { s with mem := s.mem.write addr.toNat (if a = b then 1 else 0), pc := s.pc + 4 })

/-- `IN` (R110, R111), Direct mode: a fault of the target consumes no input; with an input left the
first is consumed and stored at the target and `pc` advances by 2; with none left, `InputExhausted`.
With an input left the backend makes no difference: under Channel, out of the spec's scope, `inq` holds
the values that have arrived (log entry 7, DEDUCED).
The order of checks is the spec's decision D10 (log entry 16), the overflow of the fall-through address
D2 and D14 (R85), that of a Relative address D2 (log entry 5); for an Immediate target, which decode
never yields, `tgt` faulting is the model's DESIGN CHOICE (log entry 14). -/
def Obligations.InConsumesAndStoresNextInput : Prop :=
  ∀ (s : State) (t : Operand),
    (∀ c, firstError [errorOf (s.fallThrough 2), errorOf (s.tgt 1 t)] = some c →
      exec (.inp t) s = .next (s.raise c)) ∧
    (∀ addr, (s.pc : Int) + 2 ≤ maxAddr s.cfg.wordWidth → s.tgt 1 t = .ok addr →
      (∀ v rest, s.inq = v :: rest → exec (.inp t) s =
        .next { s with mem := s.mem.write addr.toNat v, inq := rest, pc := s.pc + 2 }) ∧
      (s.inq = [] → s.cfg.ioBackend = .direct → exec (.inp t) s = .next (s.raise .inputExhausted)))

/-- The suspension of `IN` under the Channel backend (R114; out of the spec's scope by R5, modelled as
log entry 7 says): with no value yet only `status` changes; the next value to arrive completes it. -/
def Obligations.SuspendedInCompletesOnArrival : Prop :=
  ∀ (s : State) (t : Operand) (addr : Int) (v : Int), s.cfg.ioBackend = .channel → s.inq = [] →
    s.status = .running → s.fetch = .ok (.inp t) → (s.pc : Int) + 2 ≤ maxAddr s.cfg.wordWidth →
    s.tgt 1 t = .ok addr →
    step s = .next { s with status := .awaitingInput } ∧
    step ({ s with status := .awaitingInput } : State) = .fault .noStepAwaitingInput ∧
    step (({ s with status := .awaitingInput } : State).arrive v) =
      .next { s with mem := s.mem.write addr.toNat v, pc := s.pc + 2 }

/-- `OUT` (R112, R113): its checks in order, then the operand's value appended to `outq` and `pc`
advanced by 2, all else unchanged; the emission cannot fail.
The order of checks is the spec's decision D10 (log entry 16), the overflow of the fall-through address
D2 and D14 (R85), that of a Relative address D2 (log entry 5). -/
def Obligations.OutAppendsOperandValue : Prop :=
  ∀ (s : State) (x : Operand),
    (∀ c, firstError [errorOf (s.fallThrough 2), errorOf (s.rd x)] = some c →
      exec (.out x) s = .next (s.raise c)) ∧
    (∀ v, (s.pc : Int) + 2 ≤ maxAddr s.cfg.wordWidth → s.rd x = .ok v →
      exec (.out x) s = .next { s with outq := s.outq ++ [v], pc := s.pc + 2 })

/-- `JT` (R120): both operands are resolved first; then `pc` gets op2 if op1 is not 0, else `pc + 3`, all
else unchanged. That a taken jump to a negative target faults is the spec's decision D7 (R123).
The order of checks is the spec's decision D10 (log entry 16), the overflow of the fall-through address
D2 and D14 (R85), that of a Relative address D2 (log entry 5). -/
def Obligations.JtJumpsWhenNonzero : Prop :=
  ∀ (s : State) (x y : Operand),
    (∀ c, firstError [errorOf (s.fallThrough 3), errorOf (s.rd x), errorOf (s.rd y)] = some c →
      exec (.jt x y) s = .next (s.raise c)) ∧
    (∀ a b, (s.pc : Int) + 3 ≤ maxAddr s.cfg.wordWidth → s.rd x = .ok a → s.rd y = .ok b →
      (a ≠ 0 → 0 ≤ b → exec (.jt x y) s = .next { s with pc := b.toNat }) ∧
      (a ≠ 0 → b < 0 → exec (.jt x y) s = .next (s.raise (.negativeAddress b))) ∧
      (a = 0 → exec (.jt x y) s = .next { s with pc := s.pc + 3 }))

/-- `JF` (R121): both operands are resolved first; then `pc` gets op2 if op1 is 0, else `pc + 3`, all
else unchanged. That a taken jump to a negative target faults is the spec's decision D7 (R123).
The order of checks is the spec's decision D10 (log entry 16), the overflow of the fall-through address
D2 and D14 (R85), that of a Relative address D2 (log entry 5). -/
def Obligations.JfJumpsWhenZero : Prop :=
  ∀ (s : State) (x y : Operand),
    (∀ c, firstError [errorOf (s.fallThrough 3), errorOf (s.rd x), errorOf (s.rd y)] = some c →
      exec (.jf x y) s = .next (s.raise c)) ∧
    (∀ a b, (s.pc : Int) + 3 ≤ maxAddr s.cfg.wordWidth → s.rd x = .ok a → s.rd y = .ok b →
      (a = 0 → 0 ≤ b → exec (.jf x y) s = .next { s with pc := b.toNat }) ∧
      (a = 0 → b < 0 → exec (.jf x y) s = .next (s.raise (.negativeAddress b))) ∧
      (a ≠ 0 → exec (.jf x y) s = .next { s with pc := s.pc + 3 }))

/-- `ARB` (R140): its checks in order, then `rb` gets `rb` + op1 and `pc` advances by 2, all else
unchanged. That a sum which is no word faults is the spec's decision D2.
The order of checks is the spec's decision D10 (log entry 16), the overflow of the fall-through address
D2 and D14 (R85), that of a Relative address D2 (log entry 5). -/
def Obligations.ArbAddsToRelativeBase : Prop :=
  ∀ (s : State) (x : Operand),
    (∀ c, firstError [errorOf (s.fallThrough 2), errorOf (s.rd x)] = some c →
      exec (.arb x) s = .next (s.raise c)) ∧
    (∀ a, (s.pc : Int) + 2 ≤ maxAddr s.cfg.wordWidth → s.rd x = .ok a →
      (IsWord s.cfg.wordWidth (s.rb + a) →
        exec (.arb x) s = .next { s with rb := s.rb + a, pc := s.pc + 2 }) ∧
      (¬ IsWord s.cfg.wordWidth (s.rb + a) →
        exec (.arb x) s = .next (s.raise .arithmeticOverflow)))

/-- `HALT` (R145): `status` gets `Halted` and the halted flag is set, all else unchanged. That `pc`
advances by 1 is the spec's decision D8. -/
def Obligations.HaltSetsHaltedOnly : Prop :=
  ∀ s : State, (s.pc : Int) + 1 ≤ maxAddr s.cfg.wordWidth →
    exec .halt s = .next { s with status := .halted, pc := s.pc + 1 } ∧
    ({ s with status := .halted, pc := s.pc + 1 } : State).haltedFlag = true

/-! ### Frames -/

/-- The frame of the instructions with a write operand, `ADD`, `MUL`, `LT`, `EQ` and `IN` (R37, R157):
every cell but the target's reads as before, only `IN` touches `inq`, and `status` and `cause` are
unchanged but by fault entry. The one other case, a suspended `IN`, arises only under the Channel backend
with no value there (log entry 7, DEDUCED from R114; out of the spec's scope by R5). `pc` may change. -/
def Obligations.FrameOfStoringInstructions : Prop :=
  ∀ (i : Instr) (s u : State) (k : Nat) (t : Operand), i.writeOperand = some t →
    i.opcode.writePos = some k → exec i s = .next u →
    u.cfg = s.cfg ∧ u.rb = s.rb ∧ u.outq = s.outq ∧ u.mem.prog.length = s.mem.prog.length ∧
    (i.opcode ≠ .inp → u.inq = s.inq) ∧
    (u.inq = s.inq ∨ ∃ v, s.inq = v :: u.inq) ∧
    ((u.status = s.status ∧ u.cause = s.cause) ∨
      (i.opcode = .inp ∧ s.cfg.ioBackend = .channel ∧ s.inq = [] ∧ u = s.await) ∨ ∃ c, u = s.raise c) ∧
    (∀ addr, s.tgt k t = .ok addr → ∀ b, b ≠ addr.toNat → u.mem.read b = s.mem.read b) ∧
    ((∀ addr, s.tgt k t ≠ .ok addr) → ∀ b, u.mem.read b = s.mem.read b)

/-- The frame of the instructions without a write operand, `OUT`, `JT`, `JF`, `ARB` and `HALT` (R37):
memory and `inq` are unchanged, only `OUT` touches `outq`, only `ARB` touches `rb`, and only `HALT`
changes `status` without a fault. `pc` may change. -/
def Obligations.FrameOfNonStoringInstructions : Prop :=
  ∀ (i : Instr) (s u : State), i.writeOperand = none → exec i s = .next u →
    u.cfg = s.cfg ∧ u.mem = s.mem ∧ u.inq = s.inq ∧
    (i.opcode ≠ .out → u.outq = s.outq) ∧ (i.opcode ≠ .arb → u.rb = s.rb) ∧
    ((i.opcode ≠ .halt ∧ u.status = s.status ∧ u.cause = s.cause) ∨
      (i.opcode = .halt ∧ u.status = .halted ∧ u.cause = s.cause) ∨ ∃ c, u = s.raise c)

/-! ### Reset (10_state.md, 70_reset_and_hazards.md) -/

/-- R35: the state after reset with program `P` and inputs `I`. -/
def Obligations.ResetGivesTheSpecifiedState : Prop :=
  ∀ (cfg : Config) (P I : List Int),
    (State.load cfg P I).pc = 0 ∧ (State.load cfg P I).rb = 0 ∧
    (State.load cfg P I).status = .running ∧ (State.load cfg P I).haltedFlag = false ∧
    (State.load cfg P I).cause = none ∧
    (State.load cfg P I).mem.prog = P ∧ (State.load cfg P I).mem.ovf = [] ∧
    (∀ (a : Nat) (h : a < P.length), (State.load cfg P I).mem.read a = P[a]) ∧
    (∀ a : Nat, P.length ≤ a → (State.load cfg P I).mem.read a = 0) ∧
    (State.load cfg P I).inq = I ∧ (State.load cfg P I).outq = []

/-- The invariant of R36 holds after every reset with words for program and inputs, and at the
model's reset state (an empty program and no inputs: log entry 9). -/
def Obligations.ResetMeetsTheInvariant : Prop :=
  State.reset.Inv ∧
  ∀ (cfg : Config) (P I : List Int), cfg.Valid → AllWords cfg.wordWidth P → AllWords cfg.wordWidth I →
    (State.load cfg P I).Inv

/-! ### Whole-machine rules -/

/-- Every step keeps the invariant of R36, from every state that meets it (R36 is marked as derived;
the canonical memory and the suspended `IN` are the model's: log entries 4 and 7). -/
def Obligations.StepKeepsTheInvariant : Prop :=
  ∀ s u : State, s.Inv → step s = .next u → u.Inv

/-- R36 of every state reachable from any reset: the ranges, the length of the dense array, the overflow
keys, the inputs left as a suffix of `I`, and no step after the end. The spec marks R36 as derived; that a
faulted machine has no step is its decision D23 (log entry 6); the canonical memory and the suspended
`IN` within `Inv` are the model's (log entries 4 and 7). -/
def Obligations.EveryReachableStateMeetsTheInvariants : Prop :=
  ∀ (cfg : Config) (P I : List Int) (s : State), cfg.Valid → AllWords cfg.wordWidth P →
    AllWords cfg.wordWidth I → Reaches (State.load cfg P I) s →
    s.Inv ∧ s.cfg = cfg ∧ s.mem.prog.length = P.length ∧
    (∀ e ∈ s.mem.ovf, P.length ≤ e.1 ∧ (e.1 : Int) ≤ maxAddr cfg.wordWidth) ∧
    s.inq <:+ I ∧ (s.Terminal → ∀ u, step s ≠ .next u)

/-- The tier a cell lives in cannot be observed (R27): two machines whose cells read alike, however
they are split into tiers, step alike and give the same observation. -/
def Obligations.TierOfACellIsUnobservable : Prop :=
  ∀ s t : State, s.Alike t → s.mem.wf = true → t.mem.wf = true →
    s.observe = t.observe ∧ stepSignal s = stepSignal t ∧
    (∀ f, step s = .fault f → step t = .fault f) ∧
    ∀ u, step s = .next u → ∃ v, step t = .next v ∧ u.Alike v ∧ u.mem.wf = true ∧ v.mem.wf = true

/-- Fault entry (R157; that faults are precise is the spec's decision D9): a step that ends `Faulted`
wrote `status` and `cause` and nothing else. -/
def Obligations.FaultWritesOnlyStatusAndCause : Prop :=
  ∀ s u : State, step s = .next u → u.status = .faulted →
    ∃ c, u = { s with status := .faulted, cause := some c }

/-- Only `ARB` changes the relative base, by adding its operand's value to it (R22). -/
def Obligations.OnlyArbChangesRelativeBase : Prop :=
  ∀ s u : State, step s = .next u → u.rb ≠ s.rb →
    ∃ x a, s.fetch = .ok (.arb x) ∧ s.rd x = .ok a ∧ u.rb = s.rb + a

/-- Only `HALT` halts, and the engine is suspended only by an `IN` under the Channel backend with no
value there (R23, R114). -/
def Obligations.OnlyHaltHaltsAndOnlyInSuspends : Prop :=
  ∀ s u : State, step s = .next u →
    (u.status = .halted → s.fetch = .ok .halt) ∧
    (u.status = .awaitingInput → s.cfg.ioBackend = .channel ∧ s.inq = [] ∧ ∃ t, s.fetch = .ok (.inp t))

/-- `inq` only shrinks, by the first element and only in an `IN`; `outq` only grows, by one element at
its end and only in an `OUT` (R31, R116). -/
def Obligations.QueuesMoveOnlyByInAndOut : Prop :=
  ∀ s u : State, step s = .next u →
    (u.inq = s.inq ∨ ∃ v t, s.inq = v :: u.inq ∧ s.fetch = .ok (.inp t)) ∧
    (u.outq = s.outq ∨ ∃ v x, u.outq = s.outq ++ [v] ∧ s.fetch = .ok (.out x) ∧ s.rd x = .ok v)

/-- A step stores to at most one cell, the target of the fetched instruction's write operand, and never
resizes the dense array (R41, R49). -/
def Obligations.StepStoresAtMostItsTargetCell : Prop :=
  ∀ s u : State, step s = .next u →
    u.mem.prog.length = s.mem.prog.length ∧
    ((∀ b, u.mem.read b = s.mem.read b) ∨
      ∃ i k t addr, s.fetch = .ok i ∧ i.writeOperand = some t ∧ i.opcode.writePos = some k ∧
        s.tgt k t = .ok addr ∧ ∀ b, b ≠ addr.toNat → u.mem.read b = s.mem.read b)

/-- A store into the instruction stream is seen by the next fetch (R56), whichever of the five storing
instructions makes it and wherever its target lies: the next step runs the instruction that the cells
after this one make once the word is stored. That a sum or product stored is a word is the spec's decision
D2; an `IN` under Channel takes a value that has arrived (log entry 7). -/
def Obligations.StoredWordIsTheNextInstruction : Prop :=
  ∀ (s : State) (i j : Instr) (addr v : Int) (next : Nat), s.mem.wf = true → s.status = .running →
    s.fetch = .ok i → StoresWord i s addr v → next = s.pc + i.length →
    (next : Int) ≤ maxAddr s.cfg.wordWidth →
    decode [s.cellsStoring addr v next, s.cellsStoring addr v (next + 1), s.cellsStoring addr v (next + 2),
      s.cellsStoring addr v (next + 3)] = .ok j →
    ∃ u, step s = .next u ∧ u.pc = next ∧ u.status = .running ∧
      (∀ a, u.mem.read a = s.cellsStoring addr v a) ∧ step u = exec j u

/-! ### Signals and loading -/

/-- The step signals are those of R34 (whose assignment is the spec's decision D21; that an abandoned
`IN` signals its fault is log entry 8). -/
def Obligations.SignalsReportWhatTheStepDid : Prop :=
  ∀ s : State, s.status = .running →
    (∀ v, stepSignal s = some (.producedOutput v) ↔ ∃ u, step s = .next u ∧ u.outq = s.outq ++ [v]) ∧
    (stepSignal s = some .halt ↔ ∃ u, step s = .next u ∧ u.status = .halted) ∧
    (∀ c, stepSignal s = some (.fault c) ↔ step s = .next (s.raise c)) ∧
    (stepSignal s = some .needsInput ↔
      ∃ u t, step s = .next u ∧ u.status ≠ .faulted ∧ s.fetch = .ok (.inp t)) ∧
    (stepSignal s = some .jump ↔ ∃ x y a b,
      ((s.fetch = .ok (.jt x y) ∧ a ≠ 0) ∨ (s.fetch = .ok (.jf x y) ∧ a = 0)) ∧
      s.rd x = .ok a ∧ s.rd y = .ok b ∧ step s = .next { s with pc := b.toNat })

/-- A text loads exactly when it is a line of R184's grammar whose integers are words, and then makes the
reset machine whose program is their values in order, `P[i]` the value of the `i`-th (R184, R185). What
R184 accepts beyond the source's sentence, leading zeros and one trailing terminator, is the spec's
decision D17; that the terminator is the line feed is log entry 11 (DESIGN CHOICE). -/
def Obligations.LoadedTextGivesWords : Prop :=
  ∀ (cfg : Config) (text : List Char) (I : List Int),
    (∀ tokens, IsLineOf cfg.wordWidth tokens text →
      loadText cfg text I = .ok (State.load cfg (tokens.map Token.value) I)) ∧
    (∀ s, loadText cfg text I = .ok s →
      ∃ tokens P, IsLineOf cfg.wordWidth tokens text ∧ P = tokens.map Token.value ∧
        parseProgram cfg.wordWidth text = .ok P ∧ P ≠ [] ∧ AllWords cfg.wordWidth P ∧
        s = State.load cfg P I ∧
        (∀ (i : Nat) (t : Token), tokens[i]? = some t → s.mem.read i = t.value) ∧
        ∀ c ∈ stripTerminator text, c = ',' ∨ c = '-' ∨ (48 ≤ c.toNat ∧ c.toNat ≤ 57)) ∧
    ((∀ tokens, ¬ IsLineOf cfg.wordWidth tokens text) → loadText cfg text I = .error .malformedProgram)
end

