-- ==== Sys2Proof/Laws/Decode.lean ====
section
/-! SUPPORT. What the decoder can answer (30_encoding.md R61 to R74), and that the canonical word of a
header splits back into it (R78). -/

namespace Sys2Proof

theorem Mode.ofDigit_digit (m : Mode) : Mode.ofDigit m.digit = some m := by cases m <;> rfl

theorem Mode.digit_le (m : Mode) : m.digit ≤ 2 := by cases m <;> decide

theorem Mode.ofDigit_eq_some {d : Nat} {m : Mode} (h : Mode.ofDigit d = some m) : m.digit = d := by
  unfold Mode.ofDigit at h
  split at h <;> simp_all [Mode.digit] <;> subst h <;> rfl

theorem Mode.ofDigit_eq_none {d : Nat} : Mode.ofDigit d = none ↔ 2 < d := by
  unfold Mode.ofDigit
  split <;> simp_all
  omega

theorem Opcode.ofCode_code (op : Opcode) : Opcode.ofCode op.code = some op := by cases op <;> rfl

theorem Opcode.code_lt (op : Opcode) : op.code < 100 := by cases op <;> decide

theorem Opcode.ofCode_eq_some {n : Nat} {op : Opcode} (h : Opcode.ofCode n = some op) : op.code = n := by
  unfold Opcode.ofCode at h
  split at h <;> simp_all [Opcode.code] <;> subst h <;> rfl

theorem modeAt_eq_ok {w k : Nat} {m : Mode} :
    modeAt w k = .ok m ↔ Mode.ofDigit (dig w (k + 1)) = some m := by
  unfold modeAt
  cases Mode.ofDigit (dig w (k + 1)) <;> simp

theorem modeAt_eq_error {w k : Nat} {e : DecodeError} :
    modeAt w k = .error e ↔ 2 < dig w (k + 1) ∧ e = .invalidMode k (dig w (k + 1)) := by
  unfold modeAt
  rw [← Mode.ofDigit_eq_none]
  cases Mode.ofDigit (dig w (k + 1)) <;> simp [eq_comm]

theorem Header.checkTarget_eq_ok {h g : Header} :
    h.checkTarget = .ok g ↔ g = h ∧ ∀ k, h.op.writePos = some k → h.mode k ≠ .immediate := by
  unfold Header.checkTarget
  cases hp : h.op.writePos with
  | none => simp [eq_comm]
  | some k =>
    by_cases hm : h.mode k = .immediate
    · simp [hm]
    · simp only [hm, if_false, Except.ok.injEq, Option.some.injEq, forall_eq', ne_eq, not_false_eq_true,
        and_true]
      exact eq_comm

theorem Header.checkTarget_eq_error {h : Header} {e : DecodeError} :
    h.checkTarget = .error e ↔
      ∃ k, h.op.writePos = some k ∧ h.mode k = .immediate ∧ e = .invalidMode k 1 := by
  unfold Header.checkTarget
  cases hp : h.op.writePos with
  | none => simp
  | some k =>
    by_cases hm : h.mode k = .immediate
    · simp [hm, eq_comm]
    · simp [hm]

/-- A word decodes to a header exactly when its low two digits are the opcode, its three mode digits
are the modes, and the write operand is not Immediate (R61, R70 to R74). -/
theorem decodeHeader_eq_ok {w : Int} {h : Header} :
    decodeHeader w = .ok h ↔
      0 ≤ w ∧ Opcode.ofCode (w.toNat % 100) = some h.op ∧
      Mode.ofDigit (dig w.toNat 2) = some h.m1 ∧ Mode.ofDigit (dig w.toNat 3) = some h.m2 ∧
      Mode.ofDigit (dig w.toNat 4) = some h.m3 ∧
      ∀ k, h.op.writePos = some k → h.mode k ≠ .immediate := by
  obtain ⟨hop, n1, n2, n3⟩ := h
  unfold decodeHeader
  by_cases hw : w < 0
  · simp [hw]
  · rw [if_neg hw]
    have hw' : 0 ≤ w := not_lt.mp hw
    cases hop' : Opcode.ofCode (w.toNat % 100) with
    | none => simp
    | some op =>
      simp only [hw', true_and]
      cases h1 : modeAt w.toNat 1 with
      | error e =>
        have h1' : Mode.ofDigit (dig w.toNat 2) = none := Mode.ofDigit_eq_none.mpr (modeAt_eq_error.mp h1).1
        simp [h1', bind, Except.bind]
      | ok m1 =>
      cases h2 : modeAt w.toNat 2 with
      | error e =>
        have h2' : Mode.ofDigit (dig w.toNat 3) = none := Mode.ofDigit_eq_none.mpr (modeAt_eq_error.mp h2).1
        simp [h2', bind, Except.bind]
      | ok m2 =>
      cases h3 : modeAt w.toNat 3 with
      | error e =>
        have h3' : Mode.ofDigit (dig w.toNat 4) = none := Mode.ofDigit_eq_none.mpr (modeAt_eq_error.mp h3).1
        simp [h3', bind, Except.bind]
      | ok m3 =>
        rw [modeAt_eq_ok] at h1 h2 h3
        simp only [h1, h2, h3, bind, Except.bind, Header.checkTarget_eq_ok, Option.some.injEq, Header.mk.injEq]
        constructor
        · rintro ⟨⟨rfl, rfl, rfl, rfl⟩, hk⟩
          exact ⟨rfl, rfl, rfl, rfl, hk⟩
        · rintro ⟨rfl, rfl, rfl, rfl, hk⟩
          exact ⟨⟨rfl, rfl, rfl, rfl⟩, hk⟩

/-- A canonical word splits back into its header (R78). -/
theorem decodeHeader_word {h : Header} (hk : ∀ k, h.op.writePos = some k → h.mode k ≠ .immediate) :
    decodeHeader h.word = .ok h := by
  rw [decodeHeader_eq_ok]
  have hc := h.op.code_lt
  have h1 := h.m1.digit_le
  have h2 := h.m2.digit_le
  have h3 := h.m3.digit_le
  have e0 : h.word.toNat % 100 = h.op.code := by simp only [Header.word, Int.toNat_natCast]; omega
  have e1 : dig h.word.toNat 2 = h.m1.digit := by simp only [Header.word, dig, Int.toNat_natCast]; omega
  have e2 : dig h.word.toNat 3 = h.m2.digit := by simp only [Header.word, dig, Int.toNat_natCast]; omega
  have e3 : dig h.word.toNat 4 = h.m3.digit := by simp only [Header.word, dig, Int.toNat_natCast]; omega
  rw [e0, e1, e2, e3]
  exact ⟨Int.natCast_nonneg _, Opcode.ofCode_code _, Mode.ofDigit_digit _, Mode.ofDigit_digit _,
    Mode.ofDigit_digit _, hk⟩

/-- The operand cells of an instruction, whatever follows them, give it back (R60, R67). -/
theorem Instr.header_assemble (i : Instr) (rest : List Int) :
    i.header.assemble (i.operands.map Operand.raw ++ rest) = i := by cases i <;> rfl

/-- The write operand of a well-formed instruction is not Immediate (R73). -/
theorem Instr.header_target {W : Nat} {i : Instr} (h : i.wf W = true) :
    ∀ k, i.header.op.writePos = some k → i.header.mode k ≠ .immediate := by
  cases i <;> intro k hk <;>
    simp_all [Instr.header, Opcode.writePos, Instr.wf, Operand.wfTarget] <;> subst hk <;>
    simp_all [Header.mode]

/-- What a decoded header assembles is well formed when its operand cells are words. -/
theorem Header.assemble_wf {W : Nat} {h : Header} {cells : List Int}
    (hk : ∀ k, h.op.writePos = some k → h.mode k ≠ .immediate)
    (hc : ∀ k, IsWord W (rawAt cells k)) : (h.assemble cells).wf W = true := by
  obtain ⟨op, m1, m2, m3⟩ := h
  have hw : ∀ m k, (Operand.mk m (rawAt cells k)).wf W = true := fun m k => decide_eq_true (hc k)
  cases op <;>
    simp_all [Header.assemble, Instr.wf, Operand.wfTarget, Opcode.writePos, Header.mode]

/-- The assembled instruction has the header's opcode. -/
theorem Header.assemble_opcode (h : Header) (cells : List Int) : (h.assemble cells).opcode = h.op := by
  obtain ⟨op, m1, m2, m3⟩ := h
  cases op <;> rfl

theorem Instr.length_eq (i : Instr) : i.length = 1 + i.opcode.arity := by cases i <;> rfl

end Sys2Proof
end

