-- ==== Sys2Proof/Laws/State.lean ====
section
/-! SUPPORT. One lemma per field per state update, true by `rfl`: no later proof unfolds an update. -/

namespace Sys2Proof.Machine

@[simp] theorem State.setPc_cfg (s : State) (t : Int) : (s.setPc t).cfg = s.cfg := rfl
@[simp] theorem State.setPc_mem (s : State) (t : Int) : (s.setPc t).mem = s.mem := rfl
@[simp] theorem State.setPc_pc (s : State) (t : Int) : (s.setPc t).pc = t.toNat := rfl
@[simp] theorem State.setPc_rb (s : State) (t : Int) : (s.setPc t).rb = s.rb := rfl
@[simp] theorem State.setPc_status (s : State) (t : Int) : (s.setPc t).status = s.status := rfl
@[simp] theorem State.setPc_cause (s : State) (t : Int) : (s.setPc t).cause = s.cause := rfl
@[simp] theorem State.setPc_inq (s : State) (t : Int) : (s.setPc t).inq = s.inq := rfl
@[simp] theorem State.setPc_outq (s : State) (t : Int) : (s.setPc t).outq = s.outq := rfl

@[simp] theorem State.setRb_cfg (s : State) (r : Int) : (s.setRb r).cfg = s.cfg := rfl
@[simp] theorem State.setRb_mem (s : State) (r : Int) : (s.setRb r).mem = s.mem := rfl
@[simp] theorem State.setRb_pc (s : State) (r : Int) : (s.setRb r).pc = s.pc := rfl
@[simp] theorem State.setRb_rb (s : State) (r : Int) : (s.setRb r).rb = r := rfl
@[simp] theorem State.setRb_status (s : State) (r : Int) : (s.setRb r).status = s.status := rfl
@[simp] theorem State.setRb_cause (s : State) (r : Int) : (s.setRb r).cause = s.cause := rfl
@[simp] theorem State.setRb_inq (s : State) (r : Int) : (s.setRb r).inq = s.inq := rfl
@[simp] theorem State.setRb_outq (s : State) (r : Int) : (s.setRb r).outq = s.outq := rfl

@[simp] theorem State.setHalted_cfg (s : State) : (s.setHalted).cfg = s.cfg := rfl
@[simp] theorem State.setHalted_mem (s : State) : (s.setHalted).mem = s.mem := rfl
@[simp] theorem State.setHalted_pc (s : State) : (s.setHalted).pc = s.pc := rfl
@[simp] theorem State.setHalted_rb (s : State) : (s.setHalted).rb = s.rb := rfl
@[simp] theorem State.setHalted_status (s : State) : (s.setHalted).status = .halted := rfl
@[simp] theorem State.setHalted_cause (s : State) : (s.setHalted).cause = s.cause := rfl
@[simp] theorem State.setHalted_inq (s : State) : (s.setHalted).inq = s.inq := rfl
@[simp] theorem State.setHalted_outq (s : State) : (s.setHalted).outq = s.outq := rfl

@[simp] theorem State.store_cfg (s : State) (a : Nat) (v : Int) : (s.store a v).cfg = s.cfg := rfl
@[simp] theorem State.store_mem (s : State) (a : Nat) (v : Int) : (s.store a v).mem = s.mem.write a v := rfl
@[simp] theorem State.store_pc (s : State) (a : Nat) (v : Int) : (s.store a v).pc = s.pc := rfl
@[simp] theorem State.store_rb (s : State) (a : Nat) (v : Int) : (s.store a v).rb = s.rb := rfl
@[simp] theorem State.store_status (s : State) (a : Nat) (v : Int) : (s.store a v).status = s.status := rfl
@[simp] theorem State.store_cause (s : State) (a : Nat) (v : Int) : (s.store a v).cause = s.cause := rfl
@[simp] theorem State.store_inq (s : State) (a : Nat) (v : Int) : (s.store a v).inq = s.inq := rfl
@[simp] theorem State.store_outq (s : State) (a : Nat) (v : Int) : (s.store a v).outq = s.outq := rfl

@[simp] theorem State.setInq_cfg (s : State) (q : List Int) : (s.setInq q).cfg = s.cfg := rfl
@[simp] theorem State.setInq_mem (s : State) (q : List Int) : (s.setInq q).mem = s.mem := rfl
@[simp] theorem State.setInq_pc (s : State) (q : List Int) : (s.setInq q).pc = s.pc := rfl
@[simp] theorem State.setInq_rb (s : State) (q : List Int) : (s.setInq q).rb = s.rb := rfl
@[simp] theorem State.setInq_status (s : State) (q : List Int) : (s.setInq q).status = s.status := rfl
@[simp] theorem State.setInq_cause (s : State) (q : List Int) : (s.setInq q).cause = s.cause := rfl
@[simp] theorem State.setInq_inq (s : State) (q : List Int) : (s.setInq q).inq = q := rfl
@[simp] theorem State.setInq_outq (s : State) (q : List Int) : (s.setInq q).outq = s.outq := rfl

@[simp] theorem State.outEmit_cfg (s : State) (v : Int) : (s.outEmit v).cfg = s.cfg := rfl
@[simp] theorem State.outEmit_mem (s : State) (v : Int) : (s.outEmit v).mem = s.mem := rfl
@[simp] theorem State.outEmit_pc (s : State) (v : Int) : (s.outEmit v).pc = s.pc := rfl
@[simp] theorem State.outEmit_rb (s : State) (v : Int) : (s.outEmit v).rb = s.rb := rfl
@[simp] theorem State.outEmit_status (s : State) (v : Int) : (s.outEmit v).status = s.status := rfl
@[simp] theorem State.outEmit_cause (s : State) (v : Int) : (s.outEmit v).cause = s.cause := rfl
@[simp] theorem State.outEmit_inq (s : State) (v : Int) : (s.outEmit v).inq = s.inq := rfl
@[simp] theorem State.outEmit_outq (s : State) (v : Int) : (s.outEmit v).outq = s.outq ++ [v] := rfl

@[simp] theorem State.await_cfg (s : State) : (s.await).cfg = s.cfg := rfl
@[simp] theorem State.await_mem (s : State) : (s.await).mem = s.mem := rfl
@[simp] theorem State.await_pc (s : State) : (s.await).pc = s.pc := rfl
@[simp] theorem State.await_rb (s : State) : (s.await).rb = s.rb := rfl
@[simp] theorem State.await_status (s : State) : (s.await).status = .awaitingInput := rfl
@[simp] theorem State.await_cause (s : State) : (s.await).cause = s.cause := rfl
@[simp] theorem State.await_inq (s : State) : (s.await).inq = s.inq := rfl
@[simp] theorem State.await_outq (s : State) : (s.await).outq = s.outq := rfl

@[simp] theorem State.arrive_cfg (s : State) (v : Int) : (s.arrive v).cfg = s.cfg := rfl
@[simp] theorem State.arrive_mem (s : State) (v : Int) : (s.arrive v).mem = s.mem := rfl
@[simp] theorem State.arrive_pc (s : State) (v : Int) : (s.arrive v).pc = s.pc := rfl
@[simp] theorem State.arrive_rb (s : State) (v : Int) : (s.arrive v).rb = s.rb := rfl
@[simp] theorem State.arrive_status (s : State) (v : Int) : (s.arrive v).status = s.status := rfl
@[simp] theorem State.arrive_cause (s : State) (v : Int) : (s.arrive v).cause = s.cause := rfl
@[simp] theorem State.arrive_inq (s : State) (v : Int) : (s.arrive v).inq = s.inq ++ [v] := rfl
@[simp] theorem State.arrive_outq (s : State) (v : Int) : (s.arrive v).outq = s.outq := rfl

@[simp] theorem State.resume_cfg (s : State) : (s.resume).cfg = s.cfg := rfl
@[simp] theorem State.resume_mem (s : State) : (s.resume).mem = s.mem := rfl
@[simp] theorem State.resume_pc (s : State) : (s.resume).pc = s.pc := rfl
@[simp] theorem State.resume_rb (s : State) : (s.resume).rb = s.rb := rfl
@[simp] theorem State.resume_status (s : State) : (s.resume).status = .running := rfl
@[simp] theorem State.resume_cause (s : State) : (s.resume).cause = s.cause := rfl
@[simp] theorem State.resume_inq (s : State) : (s.resume).inq = s.inq := rfl
@[simp] theorem State.resume_outq (s : State) : (s.resume).outq = s.outq := rfl

@[simp] theorem State.raise_cfg (s : State) (c : Cause) : (s.raise c).cfg = s.cfg := rfl
@[simp] theorem State.raise_mem (s : State) (c : Cause) : (s.raise c).mem = s.mem := rfl
@[simp] theorem State.raise_pc (s : State) (c : Cause) : (s.raise c).pc = s.pc := rfl
@[simp] theorem State.raise_rb (s : State) (c : Cause) : (s.raise c).rb = s.rb := rfl
@[simp] theorem State.raise_status (s : State) (c : Cause) : (s.raise c).status = .faulted := rfl
@[simp] theorem State.raise_cause (s : State) (c : Cause) : (s.raise c).cause = some c := rfl
@[simp] theorem State.raise_inq (s : State) (c : Cause) : (s.raise c).inq = s.inq := rfl
@[simp] theorem State.raise_outq (s : State) (c : Cause) : (s.raise c).outq = s.outq := rfl

end Sys2Proof.Machine
end

