-- ==== Sys2Proof/Laws/Memory.lean ====
section
/-! SUPPORT. The laws of the memory controller (20_memory.md R43 to R45): read after write, the frame
of a write, the canonical form that every write keeps, and the ranges of cells and addresses. -/

namespace Sys2Proof.Machine

namespace Memory

theorem lookup_eq_zero_of_lt {low a : Nat} {ovf : List (Nat × Int)} (hwf : ovfWf low ovf = true)
    (h : a < low) : lookup ovf a = 0 := by
  induction ovf generalizing low with
  | nil => rfl
  | cons e rest ih =>
    obtain ⟨k, v⟩ := e
    simp only [ovfWf, Bool.and_eq_true, decide_eq_true_eq] at hwf
    have : a ≠ k := by omega
    simp only [lookup, this, if_false]
    exact ih hwf.2 (by omega)

theorem ovfWf_mono {low low' : Nat} {ovf : List (Nat × Int)} (hwf : ovfWf low ovf = true)
    (h : low' ≤ low) : ovfWf low' ovf = true := by
  cases ovf with
  | nil => rfl
  | cons e rest =>
    obtain ⟨k, v⟩ := e
    simp only [ovfWf, Bool.and_eq_true, decide_eq_true_eq] at hwf ⊢
    exact ⟨⟨by omega, hwf.1.2⟩, hwf.2⟩

theorem lookup_update_same {low : Nat} {ovf : List (Nat × Int)} (hwf : ovfWf low ovf = true)
    (a : Nat) (v : Int) : lookup (update ovf a v) a = v := by
  induction ovf generalizing low with
  | nil => by_cases hv : v = 0 <;> simp [update, lookup, hv]
  | cons e rest ih =>
    obtain ⟨k, u⟩ := e
    have hwf' := hwf
    simp only [ovfWf, Bool.and_eq_true, decide_eq_true_eq] at hwf'
    by_cases hlt : a < k
    · by_cases hv : v = 0
      · have hne : a ≠ k := by omega
        simp only [update, hlt, hv, if_true, lookup, hne, if_false]
        exact lookup_eq_zero_of_lt hwf'.2 (by omega)
      · simp [update, hlt, hv, lookup]
    · by_cases hak : a = k
      · by_cases hv : v = 0
        · simp only [update, if_false, hak, lt_irrefl, if_true, hv]
          exact lookup_eq_zero_of_lt hwf'.2 (by omega)
        · simp [update, hak, hv, lookup]
      · simp only [update, hlt, hak, if_false, lookup]
        exact ih hwf'.2

theorem lookup_update_other {ovf : List (Nat × Int)} {a b : Nat} (v : Int) (h : b ≠ a) :
    lookup (update ovf a v) b = lookup ovf b := by
  induction ovf with
  | nil => by_cases hv : v = 0 <;> simp [update, lookup, hv, h]
  | cons e rest ih =>
    obtain ⟨k, u⟩ := e
    by_cases hlt : a < k
    · by_cases hv : v = 0 <;> simp [update, lookup, hlt, hv, h]
    · by_cases hak : a = k
      · have : b ≠ k := fun hb => h (hb.trans hak.symm)
        by_cases hv : v = 0 <;> simp [update, lookup, hak, hv, this]
      · simp [update, lookup, hlt, hak, ih]

theorem ovfWf_update {low a : Nat} {ovf : List (Nat × Int)} (hwf : ovfWf low ovf = true)
    (h : low ≤ a) (v : Int) : ovfWf low (update ovf a v) = true := by
  induction ovf generalizing low with
  | nil => by_cases hv : v = 0 <;> simp [update, ovfWf, hv, h]
  | cons e rest ih =>
    obtain ⟨k, u⟩ := e
    have hwf' := hwf
    simp only [ovfWf, Bool.and_eq_true, decide_eq_true_eq] at hwf'
    by_cases hlt : a < k
    · by_cases hv : v = 0
      · simpa [update, hlt, hv] using hwf
      · simp only [update, hlt, hv, if_true, if_false, ovfWf, Bool.and_eq_true, decide_eq_true_eq]
        exact ⟨⟨h, by simpa using hv⟩, ⟨⟨by omega, hwf'.1.2⟩, hwf'.2⟩⟩
    · by_cases hak : a = k
      · subst hak
        by_cases hv : v = 0
        · simp only [update, lt_irrefl, hv, if_true, if_false]
          exact ovfWf_mono hwf'.2 (by omega)
        · simp only [update, lt_irrefl, hv, if_true, if_false, ovfWf, Bool.and_eq_true, decide_eq_true_eq]
          exact ⟨⟨h, by simpa using hv⟩, hwf'.2⟩
      · simp only [update, hlt, hak, if_false, ovfWf, Bool.and_eq_true, decide_eq_true_eq]
        exact ⟨hwf'.1, ih hwf'.2 (by omega)⟩

theorem mem_of_mem_update {e : Nat × Int} {ovf : List (Nat × Int)} {a : Nat} {v : Int}
    (h : e ∈ update ovf a v) : e = (a, v) ∨ e ∈ ovf := by
  induction ovf with
  | nil =>
    by_cases hv : v = 0
    · simp [update, hv] at h
    · simp only [update, hv, if_false, List.mem_singleton] at h
      exact .inl h
  | cons d rest ih =>
    obtain ⟨k, u⟩ := d
    simp only [update] at h
    split at h
    · split at h
      · exact .inr h
      · simpa using h
    · split at h
      · split at h
        · exact .inr (List.mem_cons_of_mem _ h)
        · rcases List.mem_cons.mp h with h | h
          · exact .inl h
          · exact .inr (List.mem_cons_of_mem _ h)
      · rcases List.mem_cons.mp h with h | h
        · exact .inr (h ▸ List.mem_cons_self)
        · exact (ih h).imp_right (List.mem_cons_of_mem _)

theorem lookup_of_mem {low k : Nat} {v : Int} {ovf : List (Nat × Int)} (hwf : ovfWf low ovf = true)
    (h : (k, v) ∈ ovf) : lookup ovf k = v ∧ low ≤ k := by
  induction ovf generalizing low with
  | nil => simp at h
  | cons e rest ih =>
    obtain ⟨k', u⟩ := e
    simp only [ovfWf, Bool.and_eq_true, decide_eq_true_eq] at hwf
    rcases List.mem_cons.mp h with h | h
    · obtain ⟨rfl, rfl⟩ := Prod.mk.inj h
      exact ⟨by simp [lookup], hwf.1.1⟩
    · have ⟨h1, h2⟩ := ih hwf.2 h
      have : k ≠ k' := by omega
      exact ⟨by simp [lookup, this, h1], by omega⟩

theorem lookup_eq_zero_of_not_mem {k : Nat} {ovf : List (Nat × Int)} (h : ∀ v, (k, v) ∉ ovf) :
    lookup ovf k = 0 := by
  induction ovf with
  | nil => rfl
  | cons e rest ih =>
    obtain ⟨k', u⟩ := e
    have hne : k ≠ k' := fun hk => h u (hk ▸ List.mem_cons_self)
    simp only [lookup, hne, if_false]
    exact ih fun v hv => h v (List.mem_cons_of_mem _ hv)

theorem lookup_mem_or_zero (ovf : List (Nat × Int)) (k : Nat) :
    (k, lookup ovf k) ∈ ovf ∨ lookup ovf k = 0 := by
  by_cases h : ∃ v, (k, v) ∈ ovf
  · induction ovf with
    | nil => simp at h
    | cons e rest ih =>
      obtain ⟨k', u⟩ := e
      by_cases hk : k = k'
      · exact .inl (by simp [lookup, hk])
      · simp only [lookup, hk, if_false]
        obtain ⟨v, hv⟩ := h
        have hv' : (k, v) ∈ rest := by simpa [hk] using hv
        exact (ih ⟨v, hv'⟩).imp_left (List.mem_cons_of_mem _)
  · exact .inr (lookup_eq_zero_of_not_mem fun v hv => h ⟨v, hv⟩)

/-- Writing never resizes the dense array (R41). -/
@[simp] theorem write_prog_length (m : Memory) (a : Nat) (v : Int) :
    (m.write a v).prog.length = m.prog.length := by
  unfold write; split <;> simp

theorem read_write_same {m : Memory} (hwf : m.wf = true) (a : Nat) (v : Int) :
    (m.write a v).read a = v := by
  unfold read
  rw [write_prog_length]
  by_cases h : a < m.prog.length
  · simp [write, h]
  · simp only [write, h, if_false]
    exact lookup_update_same hwf a v

theorem read_write_other (m : Memory) {a b : Nat} (v : Int) (h : b ≠ a) :
    (m.write a v).read b = m.read b := by
  unfold read
  rw [write_prog_length]
  by_cases ha : a < m.prog.length
  · simp [write, ha, List.getElem?_set_ne (Ne.symm h)]
  · simp only [write, ha, if_false]
    rw [lookup_update_other v h]

theorem read_write {m : Memory} (hwf : m.wf = true) (a b : Nat) (v : Int) :
    (m.write a v).read b = if b = a then v else m.read b := by
  by_cases h : b = a
  · subst h; rw [if_pos rfl, read_write_same hwf]
  · rw [if_neg h, read_write_other m v h]

/-- A write keeps the canonical form. -/
theorem write_wf {m : Memory} (hwf : m.wf = true) (a : Nat) (v : Int) : (m.write a v).wf = true := by
  unfold wf
  rw [write_prog_length]
  by_cases h : a < m.prog.length
  · simp only [write, h, if_true]
    exact hwf
  · simp only [write, h, if_false]
    exact ovfWf_update hwf (by omega) v

theorem write_inRange {m : Memory} {W a : Nat} {v : Int} (hm : m.InRange W) (ha : (a : Int) ≤ maxAddr W)
    (hv : IsWord W v) : (m.write a v).InRange W := by
  by_cases h : a < m.prog.length
  · simp only [write, h, if_true]
    refine ⟨fun u hu => ?_, hm.2⟩
    rcases List.mem_or_eq_of_mem_set hu with hu | rfl
    · exact hm.1 u hu
    · exact hv
  · simp only [write, h, if_false]
    refine ⟨hm.1, fun e he => ?_⟩
    rcases mem_of_mem_update he with rfl | he
    · exact ⟨hv, ha⟩
    · exact hm.2 e he

theorem isWord_zero (W : Nat) : IsWord W 0 := by
  have h : 0 < 2 ^ (W - 1) := Nat.two_pow_pos _
  have h' : (1 : Int) ≤ ((2 ^ (W - 1) : Nat) : Int) := by exact_mod_cast h
  unfold IsWord minWord maxWord
  exact ⟨by linarith, by linarith⟩

/-- What a cell reads as is a word (10_state.md R36 c). -/
theorem read_isWord {m : Memory} {W : Nat} (hm : m.InRange W) (a : Nat) : IsWord W (m.read a) := by
  unfold read
  split
  · rename_i h
    rw [List.getD_eq_getElem _ _ h]
    exact hm.1 _ (List.getElem_mem h)
  · rcases lookup_mem_or_zero m.ovf a with h | h
    · exact (hm.2 _ h).1
    · rw [h]; exact isWord_zero W

end Memory

theorem State.reset_mem_wf : State.reset.mem.wf = true := rfl

theorem State.load_mem_wf (cfg : Config) (P I : List Int) : (State.load cfg P I).mem.wf = true := rfl

/-- `State.reset` is the reset of R35 with no program and no input. -/
theorem State.reset_eq_load : State.reset = State.load Config.suggested [] [] := rfl

end Sys2Proof.Machine
end

