-- ==== Sys2Proof/Laws/Operands.lean ====
section
/-! SUPPORT. What each shared operation can answer: the range check, memory access, operand
resolution (40_step_and_operands.md R86, R87) and the stages of format F3. -/

namespace Sys2Proof.Machine

/-! ### Except -/

@[simp] theorem except_bind_ok {ε α β : Type} (a : α) (f : α → Except ε β) :
    ((Except.ok a : Except ε α) >>= f) = f a := rfl

@[simp] theorem except_bind_error {ε α β : Type} (e : ε) (f : α → Except ε β) :
    ((Except.error e : Except ε α) >>= f) = .error e := rfl

@[simp] theorem except_pure {ε α : Type} (a : α) : (pure a : Except ε α) = .ok a := rfl

theorem except_bind_eq_ok {ε α β : Type} {x : Except ε α} {f : α → Except ε β} {b : β} :
    (x >>= f) = .ok b ↔ ∃ a, x = .ok a ∧ f a = .ok b := by
  cases x <;> simp

theorem except_bind_eq_error {ε α β : Type} {x : Except ε α} {f : α → Except ε β} {e : ε} :
    (x >>= f) = .error e ↔ x = .error e ∨ ∃ a, x = .ok a ∧ f a = .error e := by
  cases x <;> simp

/-! ### Word ranges -/

theorem maxWord_nonneg (W : Nat) : 0 ≤ maxWord W := (Memory.isWord_zero W).2

theorem isWord_of_nonneg {W : Nat} {v : Int} (h0 : 0 ≤ v) (h : v ≤ maxWord W) : IsWord W v :=
  ⟨(Memory.isWord_zero W).1.trans h0, h⟩

theorem isWord_one {W : Nat} (h : 8 ≤ W) : IsWord W 1 := by
  refine isWord_of_nonneg (by decide) ?_
  have h2 : 2 ^ 1 ≤ 2 ^ (W - 1) := Nat.pow_le_pow_right (by decide) (by omega)
  unfold maxWord
  generalize 2 ^ (W - 1) = p at h2
  omega

/-! ### The checks -/

theorem State.chk_of_isWord {s : State} {v : Int} (h : IsWord s.cfg.wordWidth v) : s.chk v = .ok v :=
  if_pos h

theorem State.chk_of_not_isWord {s : State} {v : Int} (h : ¬ IsWord s.cfg.wordWidth v) :
    s.chk v = .error .arithmeticOverflow := if_neg h

theorem State.chk_eq_ok {s : State} {v a : Int} :
    s.chk v = .ok a ↔ IsWord s.cfg.wordWidth v ∧ a = v := by
  unfold State.chk
  split
  · rename_i h
    exact ⟨fun e => (by cases e; exact ⟨h, rfl⟩), fun e => e.2 ▸ rfl⟩
  · rename_i h
    exact ⟨fun e => (by cases e), fun e => absurd e.1 h⟩

theorem State.chk_eq_error {s : State} {v : Int} {c : Cause} :
    s.chk v = .error c ↔ ¬ IsWord s.cfg.wordWidth v ∧ c = .arithmeticOverflow := by
  unfold State.chk
  split
  · rename_i h
    exact ⟨fun e => (by cases e), fun e => absurd h e.1⟩
  · rename_i h
    exact ⟨fun e => (by cases e; exact ⟨h, rfl⟩), fun e => e.2 ▸ rfl⟩

theorem checkAddress_of_nonneg {a : Int} (h : 0 ≤ a) : checkAddress a = .ok a :=
  if_neg (not_lt.mpr h)

theorem checkAddress_of_neg {a : Int} (h : a < 0) : checkAddress a = .error (.negativeAddress a) :=
  if_pos h

theorem checkAddress_eq_ok {a b : Int} : checkAddress a = .ok b ↔ 0 ≤ a ∧ b = a := by
  unfold checkAddress; split
  · simp; omega
  · simp [eq_comm]; omega

theorem State.fallThrough_ok {s : State} {L : Nat} (h : (s.pc : Int) + L ≤ maxAddr s.cfg.wordWidth) :
    s.fallThrough L = .ok ((s.pc : Int) + L) :=
  s.chk_of_isWord (isWord_of_nonneg (by omega) h)

theorem State.fallThrough_overflow {s : State} {L : Nat}
    (h : maxAddr s.cfg.wordWidth < (s.pc : Int) + L) : s.fallThrough L = .error .arithmeticOverflow :=
  s.chk_of_not_isWord fun hw => absurd hw.2 (not_le.mpr h)

theorem State.fallThrough_eq_ok {s : State} {L : Nat} {n : Int} :
    s.fallThrough L = .ok n ↔ (s.pc : Int) + L ≤ maxAddr s.cfg.wordWidth ∧ n = (s.pc : Int) + L := by
  unfold State.fallThrough
  rw [State.chk_eq_ok]
  exact ⟨fun h => ⟨h.1.2, h.2⟩, fun h => ⟨isWord_of_nonneg (by omega) h.1, h.2⟩⟩

/-! ### Memory access -/

theorem State.memRead_of_nonneg {s : State} {a : Int} (h : 0 ≤ a) :
    s.memRead a = .ok (s.mem.read a.toNat) := by simp [State.memRead, checkAddress_of_nonneg h]

theorem State.memRead_of_neg {s : State} {a : Int} (h : a < 0) :
    s.memRead a = .error (.negativeAddress a) := by simp [State.memRead, checkAddress_of_neg h]

theorem State.memRead_eq_ok {s : State} {a : Int} {v : Int} :
    s.memRead a = .ok v ↔ 0 ≤ a ∧ v = s.mem.read a.toNat := by
  by_cases h : 0 ≤ a
  · simp [State.memRead_of_nonneg h, h, eq_comm]
  · simp [State.memRead_of_neg (not_le.mp h), h]

@[simp] theorem State.memRead_natCast (s : State) (a : Nat) :
    s.memRead (a : Int) = .ok (s.mem.read a) := by simp [State.memRead_of_nonneg]

theorem State.memWrite_of_nonneg {s : State} {a : Int} (h : 0 ≤ a) (v : Int) :
    s.memWrite a v = .ok (s.store a.toNat v) := by simp [State.memWrite, checkAddress_of_nonneg h]

theorem State.memWrite_of_neg {s : State} {a : Int} (h : a < 0) (v : Int) :
    s.memWrite a v = .error (.negativeAddress a) := by simp [State.memWrite, checkAddress_of_neg h]

theorem State.memWrite_eq_ok {s t : State} {a : Int} {v : Int} :
    s.memWrite a v = .ok t ↔ 0 ≤ a ∧ t = s.store a.toNat v := by
  by_cases h : 0 ≤ a
  · simp [State.memWrite_of_nonneg h, h, eq_comm]
  · simp [State.memWrite_of_neg (not_le.mp h), h]

/-! ### Operand resolution -/

theorem State.rd_immediate (s : State) (r : Int) : s.rd ⟨.immediate, r⟩ = .ok r := rfl

theorem State.rd_position (s : State) (r : Int) : s.rd ⟨.position, r⟩ = s.memRead r := rfl

theorem State.rd_relative (s : State) (r : Int) :
    s.rd ⟨.relative, r⟩ = (s.chk (s.rb + r) >>= fun a => s.memRead a) := rfl

theorem State.tgt_immediate (s : State) (k : Nat) (r : Int) :
    s.tgt k ⟨.immediate, r⟩ = .error (.invalidMode k 1) := rfl

theorem State.tgt_position (s : State) (k : Nat) (r : Int) :
    s.tgt k ⟨.position, r⟩ = checkAddress r := rfl

theorem State.tgt_relative (s : State) (k : Nat) (r : Int) :
    s.tgt k ⟨.relative, r⟩ = (s.chk (s.rb + r) >>= fun a => checkAddress a) := rfl

/-- A read operand that resolves gives a word (10_state.md R36 c). -/
theorem State.rd_isWord {s : State} {o : Operand} {v : Int} (hm : s.mem.InRange s.cfg.wordWidth)
    (ho : o.wf s.cfg.wordWidth = true) (h : s.rd o = .ok v) : IsWord s.cfg.wordWidth v := by
  obtain ⟨mode, r⟩ := o
  cases mode
  · rw [State.rd_position, State.memRead_eq_ok] at h
    exact h.2 ▸ Memory.read_isWord hm _
  · rw [State.rd_immediate] at h
    cases h
    exact of_decide_eq_true ho
  · rw [State.rd_relative, except_bind_eq_ok] at h
    obtain ⟨a, -, h⟩ := h
    rw [State.memRead_eq_ok] at h
    exact h.2 ▸ Memory.read_isWord hm _

/-- A target address that resolves is an address: not negative, and a word for a well-formed operand. -/
theorem State.tgt_nonneg {s : State} {k : Nat} {o : Operand} {a : Int} (h : s.tgt k o = .ok a) :
    0 ≤ a := by
  obtain ⟨mode, r⟩ := o
  cases mode
  · rw [State.tgt_position, checkAddress_eq_ok] at h
    omega
  · cases h
  · rw [State.tgt_relative, except_bind_eq_ok] at h
    obtain ⟨b, -, h⟩ := h
    rw [checkAddress_eq_ok] at h
    omega

theorem State.tgt_le {s : State} {k : Nat} {o : Operand} {a : Int}
    (ho : o.wf s.cfg.wordWidth = true) (h : s.tgt k o = .ok a) : a ≤ maxAddr s.cfg.wordWidth := by
  have hw : IsWord s.cfg.wordWidth o.raw := of_decide_eq_true ho
  obtain ⟨mode, r⟩ := o
  cases mode
  · rw [State.tgt_position, checkAddress_eq_ok] at h
    exact h.2 ▸ hw.2
  · cases h
  · rw [State.tgt_relative, except_bind_eq_ok] at h
    obtain ⟨b, hb, h⟩ := h
    rw [checkAddress_eq_ok] at h
    rw [State.chk_eq_ok] at hb
    rw [h.2, hb.2]
    exact hb.1.2

/-! ### Format F3 -/

/-- All that the shared stages of `ADD`, `MUL`, `LT` and `EQ` can answer when they complete. -/
theorem State.storeResult_eq_ok {s u : State} {x y t : Operand} {f : Int → Int → Except Cause Int} :
    s.storeResult x y t f = .ok u ↔
      ∃ next a b addr v, s.fallThrough 4 = .ok next ∧ s.rd x = .ok a ∧ s.rd y = .ok b ∧
        s.tgt 3 t = .ok addr ∧ f a b = .ok v ∧ u = (s.store addr.toNat v).setPc next := by
  unfold State.storeResult
  simp only [except_bind_eq_ok, except_pure]
  constructor
  · rintro ⟨next, hn, a, ha, b, hb, addr, hd, v, hv, s', hw, hu⟩
    rw [State.memWrite_eq_ok] at hw
    cases hu
    exact ⟨next, a, b, addr, v, hn, ha, hb, hd, hv, hw.2 ▸ rfl⟩
  · rintro ⟨next, a, b, addr, v, hn, ha, hb, hd, hv, rfl⟩
    exact ⟨next, hn, a, ha, b, hb, addr, hd, v, hv, _, State.memWrite_of_nonneg (State.tgt_nonneg hd) v, rfl⟩

/-! ### The end of a step -/

@[simp] theorem State.finish_ok (s t : State) : s.finish (.ok t) = .next t := rfl

@[simp] theorem State.finish_error (s : State) (c : Cause) : s.finish (.error c) = .next (s.raise c) := rfl

/-- A step ends in what it computed or in fault entry (60_exceptions.md R157). -/
theorem State.finish_eq_next {s t : State} {r : Except Cause State} :
    s.finish r = .next t ↔ r = .ok t ∨ ∃ c, r = .error c ∧ t = s.raise c := by
  cases r <;> simp [State.finish, eq_comm]

end Sys2Proof.Machine
end

