-- ==== Sys2Proof/Laws/Exec.lean ====
section
/-! SUPPORT. What an instruction can do, said once: when `exec` answers a next state, either the step
was abandoned with fault entry, or the instruction ran to its end with exactly its own effect. -/

namespace Sys2Proof.Machine

/-- The shared part of the four instructions that store a result. -/
def Stored (s u : State) (x y t : Operand) (P : Int → Int → Int → Prop) : Prop :=
  ∃ next a b addr v, s.fallThrough 4 = .ok next ∧ s.rd x = .ok a ∧ s.rd y = .ok b ∧
    s.tgt 3 t = .ok addr ∧ P a b v ∧ u = (s.store addr.toNat v).setPc next

/-- The shared part of the two jumps. -/
def Jumped (s u : State) (x y : Operand) (taken : Int → Bool) : Prop :=
  ∃ next a b, s.fallThrough 3 = .ok next ∧ s.rd x = .ok a ∧ s.rd y = .ok b ∧
    ((taken a = true ∧ 0 ≤ b ∧ u = s.setPc b) ∨ (taken a = false ∧ u = s.setPc next))

/-- `u` is what instruction `i` leaves of `s` when it is not abandoned (rules R100 to R145). -/
def Completed (i : Instr) (s u : State) : Prop :=
  match i with
  | .add x y t => Stored s u x y t fun a b v => IsWord s.cfg.wordWidth (a + b) ∧ v = a + b
  | .mul x y t => Stored s u x y t fun a b v => IsWord s.cfg.wordWidth (a * b) ∧ v = a * b
  | .inp t => ∃ next addr, s.fallThrough 2 = .ok next ∧ s.tgt 1 t = .ok addr ∧
      ((∃ v rest, s.inq = v :: rest ∧ u = ((s.setInq rest).store addr.toNat v).setPc next) ∨
        (s.inq = [] ∧ s.cfg.ioBackend = .channel ∧ u = s.await))
  | .out x => ∃ next v, s.fallThrough 2 = .ok next ∧ s.rd x = .ok v ∧ u = (s.outEmit v).setPc next
  | .jt x y => Jumped s u x y fun a => isTrueWord a
  | .jf x y => Jumped s u x y fun a => !isTrueWord a
  | .lt x y t => Stored s u x y t fun a b v => v = truthWord (decide (a < b))
  | .eq x y t => Stored s u x y t fun a b v => v = truthWord (decide (a = b))
  | .arb x => ∃ next a, s.fallThrough 2 = .ok next ∧ s.rd x = .ok a ∧
      IsWord s.cfg.wordWidth (s.rb + a) ∧ u = (s.setRb (s.rb + a)).setPc next
  | .halt => ∃ next, s.fallThrough 1 = .ok next ∧ u = s.setHalted.setPc next

theorem stored_of_storeResult {s u : State} {x y t : Operand} {f : Int → Int → Except Cause Int}
    {P : Int → Int → Int → Prop} (hP : ∀ a b v, f a b = .ok v → P a b v)
    (h : s.storeResult x y t f = .ok u) : Stored s u x y t P := by
  rw [State.storeResult_eq_ok] at h
  obtain ⟨next, a, b, addr, v, hn, ha, hb, hd, hv, hu⟩ := h
  exact ⟨next, a, b, addr, v, hn, ha, hb, hd, hP a b v hv, hu⟩

theorem jumped_of_jumpIf {s u : State} {x y : Operand} {taken : Int → Bool}
    (h : s.jumpIf x y taken = .ok u) : Jumped s u x y taken := by
  unfold State.jumpIf at h
  simp only [except_bind_eq_ok, except_pure] at h
  obtain ⟨next, hn, a, ha, b, hb, h⟩ := h
  refine ⟨next, a, b, hn, ha, hb, ?_⟩
  cases ht : taken a with
  | true =>
    simp only [ht, if_true, except_bind_eq_ok, checkAddress_eq_ok] at h
    obtain ⟨c, ⟨hc, rfl⟩, h⟩ := h
    cases h
    exact .inl ⟨rfl, hc, rfl⟩
  | false =>
    simp only [ht, Bool.false_eq_true, if_false] at h
    cases h
    exact .inr ⟨rfl, rfl⟩

/-- The inversion of `exec`: fault entry or the instruction's own effect. -/
theorem exec_cases {i : Instr} {s u : State} (h : exec i s = .next u) :
    (∃ c, u = s.raise c) ∨ Completed i s u := by
  have key : ∀ r : Except Cause State, s.finish r = .next u →
      (r = .ok u → Completed i s u) → (∃ c, u = s.raise c) ∨ Completed i s u := by
    intro r hr hc
    rcases State.finish_eq_next.mp hr with hr | ⟨c, -, hu⟩
    · exact .inr (hc hr)
    · exact .inl ⟨c, hu⟩
  cases i with
  | add x y t => exact key _ h fun hr => stored_of_storeResult (fun a b v hv => State.chk_eq_ok.mp hv) hr
  | mul x y t => exact key _ h fun hr => stored_of_storeResult (fun a b v hv => State.chk_eq_ok.mp hv) hr
  | lt x y t => exact key _ h fun hr => stored_of_storeResult (fun a b v hv => (Except.ok.inj hv).symm) hr
  | eq x y t => exact key _ h fun hr => stored_of_storeResult (fun a b v hv => (Except.ok.inj hv).symm) hr
  | jt x y => exact key _ h fun hr => jumped_of_jumpIf hr
  | jf x y => exact key _ h fun hr => jumped_of_jumpIf hr
  | inp t =>
    refine key _ h fun hr => ?_
    simp only [except_bind_eq_ok] at hr
    obtain ⟨next, hn, addr, hd, hr⟩ := hr
    refine ⟨next, addr, hn, hd, ?_⟩
    cases hq : s.inq with
    | cons v rest =>
      simp only [State.inReq, hq, except_bind_eq_ok, State.memWrite_eq_ok, except_pure] at hr
      obtain ⟨s', ⟨-, rfl⟩, hr⟩ := hr
      cases hr
      exact .inl ⟨v, rest, rfl, rfl⟩
    | nil =>
      cases hb : s.cfg.ioBackend with
      | direct => simp [State.inReq, hq, hb] at hr
      | channel =>
        simp only [State.inReq, hq, hb, except_pure] at hr
        cases hr
        exact .inr ⟨rfl, rfl, rfl⟩
  | out x =>
    refine key _ h fun hr => ?_
    simp only [except_bind_eq_ok, except_pure] at hr
    obtain ⟨next, hn, v, hv, hr⟩ := hr
    exact ⟨next, v, hn, hv, (Except.ok.inj hr).symm⟩
  | arb x =>
    refine key _ h fun hr => ?_
    simp only [except_bind_eq_ok, except_pure, State.chk_eq_ok] at hr
    obtain ⟨next, hn, a, ha, r, ⟨hw, rfl⟩, hr⟩ := hr
    exact ⟨next, a, hn, ha, hw, (Except.ok.inj hr).symm⟩
  | halt =>
    refine key _ h fun hr => ?_
    simp only [except_bind_eq_ok, except_pure] at hr
    obtain ⟨next, hn, hr⟩ := hr
    exact ⟨next, hn, (Except.ok.inj hr).symm⟩

/-- Every instruction is `finish` of something: it never answers a fault or a refusal. -/
theorem exec_total (i : Instr) (s : State) : ∃ u, exec i s = .next u := by
  have key : ∀ r : Except Cause State, ∃ u, s.finish r = .next u := fun r => by cases r <;> exact ⟨_, rfl⟩
  cases i <;> exact key _

/-- Where the fall-through address is no address, every instruction faults first on it (R85). -/
theorem exec_of_overflow {i : Instr} {s : State} {c : Cause} (h : s.fallThrough i.length = .error c) :
    exec i s = .next (s.raise c) := by
  cases i <;>
    simp [exec, execAdd, execMul, execIn, execOut, execJt, execJf, execLt, execEq, execArb, execHalt,
      State.storeResult, State.jumpIf, Instr.length, Instr.operands] at h ⊢ <;> simp [h]

end Sys2Proof.Machine
end

