-- ==== Sys2Proof/Laws/Step.lean ====
section
/-! SUPPORT. What fetch and a step can do: the instruction fetched is the one the decoder reads from
the cells at `pc` (40_step_and_operands.md R81 to R84), and a step is the run of that instruction. -/

namespace Sys2Proof.Machine

@[simp] theorem liftDecode_ok {α : Type} (a : α) : liftDecode (.ok a : Except DecodeError α) = .ok a := rfl

@[simp] theorem liftDecode_error {α : Type} (e : DecodeError) :
    liftDecode (.error e : Except DecodeError α) = .error (causeOf e) := rfl

theorem liftDecode_eq_ok {α : Type} {x : Except DecodeError α} {a : α} :
    liftDecode x = .ok a ↔ x = .ok a := by cases x <;> simp [liftDecode]

/-- The cells read are the memory's, and every address is at most `MAXADDR` (R84). -/
theorem State.readCells_eq_ok {s : State} {n : Nat} {cells : List Int} {a : Nat} :
    s.readCells (a : Int) n = .ok cells ↔
      (0 < n → (a : Int) + n ≤ maxAddr s.cfg.wordWidth + 1) ∧
        cells = (List.range' a n).map s.mem.read := by
  induction n generalizing a cells with
  | zero => simp [State.readCells, eq_comm]
  | succ n ih =>
    have hcast : (a : Int) + 1 = ((a + 1 : Nat) : Int) := by push_cast; rfl
    simp only [State.readCells, except_bind_eq_ok, State.chk_eq_ok, except_pure, hcast, ih,
      List.range'_succ, List.map_cons]
    constructor
    · rintro ⟨a', ⟨hw, rfl⟩, v, hv, rest, ⟨hr, rfl⟩, hc⟩
      rw [State.memRead_natCast] at hv
      cases hv
      cases hc
      refine ⟨fun _ => ?_, rfl⟩
      rcases Nat.eq_zero_or_pos n with rfl | hn
      · have := hw.2; push_cast; linarith
      · have := hr hn; push_cast at this ⊢; linarith
    · rintro ⟨hle, rfl⟩
      have hle' := hle (Nat.succ_pos n)
      push_cast at hle'
      have hn0 : (0 : Int) ≤ n := Int.natCast_nonneg n
      have ha : (a : Int) ≤ maxAddr s.cfg.wordWidth := by linarith
      refine ⟨a, ⟨isWord_of_nonneg (Int.natCast_nonneg a) ha, rfl⟩, _,
        State.memRead_natCast s a, _, ⟨fun _ => ?_, rfl⟩, rfl⟩
      push_cast
      linarith

/-- All that `fetch` can answer when it answers an instruction. -/
theorem State.fetch_eq_ok {s : State} {i : Instr} :
    s.fetch = .ok i ↔
      ∃ h, decodeHeader (s.mem.read s.pc) = .ok h ∧
        (0 < h.op.arity → (s.pc : Int) + h.op.arity ≤ maxAddr s.cfg.wordWidth) ∧
        i = h.assemble ((List.range' (s.pc + 1) h.op.arity).map s.mem.read) := by
  have hcast : (s.pc : Int) + 1 = ((s.pc + 1 : Nat) : Int) := by push_cast; rfl
  unfold State.fetch
  rw [State.memRead_natCast, hcast]
  simp only [except_bind_ok, except_bind_eq_ok, liftDecode_eq_ok, State.readCells_eq_ok, except_pure]
  constructor
  · rintro ⟨h, hh, cells, ⟨hle, rfl⟩, hi⟩
    refine ⟨h, hh, fun hp => ?_, (Except.ok.inj hi).symm⟩
    have := hle hp
    push_cast at this
    linarith
  · rintro ⟨h, hh, hle, rfl⟩
    refine ⟨h, hh, _, ⟨fun hp => ?_, rfl⟩, rfl⟩
    have := hle hp
    push_cast
    linarith

/-- `fetch` depends on the memory, `pc` and the word width alone. -/
theorem State.fetch_congr {s t : State} (hc : s.cfg = t.cfg) (hp : s.pc = t.pc) (hm : s.mem = t.mem) :
    s.fetch = t.fetch := by
  have hr : ∀ (n : Nat) (a : Int), s.readCells a n = t.readCells a n := by
    intro n
    induction n with
    | zero => intro a; rfl
    | succ n ih => intro a; simp only [State.readCells, State.chk, State.memRead, hc, hm, ih]
  simp only [State.fetch, State.memRead, hp, hm, hr]

@[simp] theorem State.resume_fetch (s : State) : s.resume.fetch = s.fetch :=
  State.fetch_congr rfl rfl rfl

/-- A fetched instruction is well formed when the memory holds words. -/
theorem State.fetch_wf {s : State} {i : Instr} (hm : s.mem.InRange s.cfg.wordWidth)
    (h : s.fetch = .ok i) : i.wf s.cfg.wordWidth = true := by
  obtain ⟨g, hh, -, rfl⟩ := State.fetch_eq_ok.mp h
  refine Header.assemble_wf (decodeHeader_eq_ok.mp hh).2.2.2.2.2 fun k => ?_
  unfold rawAt
  by_cases hk : k < ((List.range' (s.pc + 1) g.op.arity).map s.mem.read).length
  · rw [List.getD_eq_getElem _ _ hk, List.getElem_map]
    exact Memory.read_isWord hm _
  · rw [List.getD_eq_default _ _ (not_lt.mp hk)]
    exact Memory.isWord_zero _

/-- A running engine's step: fault entry, or the fetched instruction's own effect. -/
theorem State.runInstruction_cases {s u : State} (h : s.runInstruction = .next u) :
    (∃ c, u = s.raise c) ∨ ∃ i, s.fetch = .ok i ∧ Completed i s u := by
  unfold State.runInstruction at h
  cases hf : s.fetch with
  | error c =>
    rw [hf] at h
    cases h
    exact .inl ⟨c, rfl⟩
  | ok i =>
    rw [hf] at h
    exact (exec_cases h).imp_right fun hc => ⟨i, rfl, hc⟩

/-- The inversion of `step`: it begins in `s`, or in `s` resumed when `s` is suspended and a value
has arrived (R80, R92, R114). -/
theorem step_cases {s u : State} (h : step s = .next u) :
    (s.status = .running ∧ s.runInstruction = .next u) ∨
      (s.status = .awaitingInput ∧ s.inq ≠ [] ∧ s.resume.runInstruction = .next u) := by
  unfold step at h
  cases hs : s.status with
  | running => rw [hs] at h; exact .inl ⟨rfl, h⟩
  | awaitingInput =>
    rw [hs] at h
    by_cases hq : s.inq = []
    · simp [hq] at h
    · simp only [hq, if_false] at h
      exact .inr ⟨rfl, hq, h⟩
  | halted => rw [hs] at h; cases h
  | faulted => rw [hs] at h; cases h

@[simp] theorem State.resume_raise (s : State) (c : Cause) : s.resume.raise c = s.raise c := rfl

/-- Placing cells keeps the canonical form. -/
theorem Memory.writeCells_wf {m : Memory} (hwf : m.wf = true) (a : Nat) (vs : List Int) :
    (m.writeCells a vs).wf = true := by
  induction vs generalizing m a with
  | nil => exact hwf
  | cons v vs ih => exact ih (Memory.write_wf hwf a v) (a + 1)

end Sys2Proof.Machine
end

