-- ==== Sys2Proof/Laws/Effects.lean ====
section
/-! SUPPORT. The two directions that `exec_cases` leaves open: a failing check, in the order of
60_exceptions.md R156, is what the shared stages answer, and an instruction whose checks pass stores its
word. Then what a step can do, with fetch and resumption taken together. -/

namespace Sys2Proof.Machine

/-! ### The first failing check -/

@[simp] theorem errorOf_ok {α : Type} (a : α) : errorOf (.ok a : Except Cause α) = none := rfl

@[simp] theorem errorOf_error {α : Type} (c : Cause) : errorOf (.error c : Except Cause α) = some c := rfl

@[simp] theorem firstError_none (rest : List (Option Cause)) : firstError (none :: rest) = firstError rest := rfl

@[simp] theorem firstError_some (c : Cause) (rest : List (Option Cause)) :
    firstError (some c :: rest) = some c := rfl

/-- The first check fails, or it passes and the first failing one is among the rest. -/
theorem firstError_cons_eq_some {α : Type} {x : Except Cause α} {rest : List (Option Cause)} {c : Cause} :
    firstError (errorOf x :: rest) = some c ↔ x = .error c ∨ ∃ a, x = .ok a ∧ firstError rest = some c := by
  cases x <;> simp

/-- A stage of a step whose check passes hands on to the next; one that fails ends the step. -/
theorem bind_eq_error_of_firstError {α β : Type} {x : Except Cause α} {f : α → Except Cause β}
    {rest : List (Option Cause)} {c : Cause} (h : firstError (errorOf x :: rest) = some c)
    (hf : ∀ a, x = .ok a → firstError rest = some c → f a = .error c) : (x >>= f) = .error c := by
  rw [except_bind_eq_error]
  exact (firstError_cons_eq_some.mp h).imp_right fun ⟨a, ha, hr⟩ => ⟨a, ha, hf a ha hr⟩

theorem State.storeResult_of_firstError {s : State} {x y t : Operand} {f : Int → Int → Except Cause Int}
    {c : Cause} (h : firstError [errorOf (s.fallThrough 4), errorOf (s.rd x), errorOf (s.rd y),
      errorOf (s.tgt 3 t)] = some c) : s.storeResult x y t f = .error c := by
  refine bind_eq_error_of_firstError h fun _ _ h => ?_
  refine bind_eq_error_of_firstError h fun _ _ h => ?_
  refine bind_eq_error_of_firstError h fun _ _ h => ?_
  exact bind_eq_error_of_firstError h fun _ _ h => by cases h

theorem State.jumpIf_of_firstError {s : State} {x y : Operand} {taken : Int → Bool} {c : Cause}
    (h : firstError [errorOf (s.fallThrough 3), errorOf (s.rd x), errorOf (s.rd y)] = some c) :
    s.jumpIf x y taken = .error c := by
  refine bind_eq_error_of_firstError h fun _ _ h => ?_
  refine bind_eq_error_of_firstError h fun _ _ h => ?_
  exact bind_eq_error_of_firstError h fun _ _ h => by cases h

/-! ### A store that goes through -/

/-- When the checks of format F3 pass, what remains is the operation itself. -/
theorem State.storeResult_of_ok {s : State} {x y t : Operand} {f : Int → Int → Except Cause Int}
    {a b addr v : Int} (hp : (s.pc : Int) + 4 ≤ maxAddr s.cfg.wordWidth) (ha : s.rd x = .ok a)
    (hb : s.rd y = .ok b) (ht : s.tgt 3 t = .ok addr) (hv : f a b = .ok v) :
    s.storeResult x y t f = .ok { s with mem := s.mem.write addr.toNat v, pc := s.pc + 4 } := by
  rw [State.storeResult_eq_ok]
  exact ⟨_, a, b, addr, v, State.fallThrough_ok (L := 4) hp, ha, hb, ht, hv, rfl⟩

theorem State.chk_self {s : State} {v r : Int} (hv : v = r) (hw : IsWord s.cfg.wordWidth v) : s.chk r = .ok v :=
  hv ▸ State.chk_of_isWord hw

/-- The inputs left when `i` has stored its word: `IN` takes the first, the others none. -/
def inqAfter (i : Instr) (s : State) : List Int := if i.opcode = .inp then s.inq.tail else s.inq

/-- An instruction that is about to store a word stores it, and advances `pc` by its length. -/
theorem exec_of_storesWord {i : Instr} {s : State} {addr v : Int} (h : StoresWord i s addr v)
    (hp : (s.pc : Int) + i.length ≤ maxAddr s.cfg.wordWidth) :
    exec i s = .next
      { s with mem := s.mem.write addr.toNat v, inq := inqAfter i s, pc := s.pc + i.length } := by
  cases i with
  | add x y t =>
    obtain ⟨a, b, ha, hb, ht, hv, hw⟩ := h
    simp only [exec, execAdd]
    rw [State.storeResult_of_ok hp ha hb ht (State.chk_self hv hw)]
    rfl
  | mul x y t =>
    obtain ⟨a, b, ha, hb, ht, hv, hw⟩ := h
    simp only [exec, execMul]
    rw [State.storeResult_of_ok hp ha hb ht (State.chk_self hv hw)]
    rfl
  | lt x y t =>
    obtain ⟨a, b, ha, hb, ht, hv⟩ := h
    simp only [exec, execLt]
    rw [State.storeResult_of_ok (v := v) hp ha hb ht (by simp [truthWord, hv])]
    rfl
  | eq x y t =>
    obtain ⟨a, b, ha, hb, ht, hv⟩ := h
    simp only [exec, execEq]
    rw [State.storeResult_of_ok (v := v) hp ha hb ht (by simp [truthWord, hv])]
    rfl
  | inp t =>
    obtain ⟨ht, rest, hq⟩ := h
    simp only [exec, execIn]
    rw [State.fallThrough_ok (L := 2) hp, ht]
    simp only [except_bind_ok, State.inReq, hq, State.memWrite_of_nonneg (State.tgt_nonneg ht), inqAfter]
    rfl
  | out _ => exact h.elim
  | jt _ _ => exact h.elim
  | jf _ _ => exact h.elim
  | arb _ => exact h.elim
  | halt => exact h.elim

/-- The address of a store is an address. -/
theorem StoresWord.nonneg {i : Instr} {s : State} {addr v : Int} (h : StoresWord i s addr v) : 0 ≤ addr := by
  cases i with
  | add => obtain ⟨_, _, _, _, ht, _⟩ := h; exact State.tgt_nonneg ht
  | mul => obtain ⟨_, _, _, _, ht, _⟩ := h; exact State.tgt_nonneg ht
  | lt => obtain ⟨_, _, _, _, ht, _⟩ := h; exact State.tgt_nonneg ht
  | eq => obtain ⟨_, _, _, _, ht, _⟩ := h; exact State.tgt_nonneg ht
  | inp => exact State.tgt_nonneg h.1
  | out => exact h.elim
  | jt => exact h.elim
  | jf => exact h.elim
  | arb => exact h.elim
  | halt => exact h.elim

/-- How the memory reads once a word is stored (R44). -/
theorem State.read_write_eq_cellsStoring {s : State} (hwf : s.mem.wf = true) {addr : Int} (h : 0 ≤ addr)
    (v : Int) (a : Nat) : (s.mem.write addr.toNat v).read a = s.cellsStoring addr v a := by
  rw [Memory.read_write hwf, State.cellsStoring]
  by_cases ha : (a : Int) = addr
  · rw [if_pos ha, if_pos (by omega)]
  · rw [if_neg ha, if_neg (by omega)]

/-! ### What a step can do -/

/-- Fault entry, or the effect of the fetched instruction, begun in `s` or in `s` resumed. -/
theorem step_effect {s u : State} (h : step s = .next u) :
    (∃ c, u = s.raise c) ∨ ∃ i, s.fetch = .ok i ∧
      ((s.status = .running ∧ Completed i s u) ∨ (s.inq ≠ [] ∧ Completed i s.resume u)) := by
  rcases step_cases h with ⟨hs, h⟩ | ⟨-, hq, h⟩
  · rcases State.runInstruction_cases h with ⟨c, rfl⟩ | ⟨i, hf, hc⟩
    · exact .inl ⟨c, rfl⟩
    · exact .inr ⟨i, hf, .inl ⟨hs, hc⟩⟩
  · rcases State.runInstruction_cases h with ⟨c, rfl⟩ | ⟨i, hf, hc⟩
    · exact .inl ⟨c, rfl⟩
    · exact .inr ⟨i, by simpa using hf, .inr ⟨hq, hc⟩⟩

end Sys2Proof.Machine
end

