-- ==== Sys2Proof/Laws/Loader.lean ====
section
/-! SUPPORT. What each stage of the loader answers, in the terms of the grammar of
70_reset_and_hazards.md R184: digits, one integer, the split at the commas, the line terminator. -/

namespace Sys2Proof.Machine

/-! ### Digits -/

theorem digitChar_toNat (d : Fin 10) : (digitChar d).toNat = 48 + d := by revert d; decide

theorem digitChar_ne (d : Fin 10) : digitChar d ≠ ',' ∧ digitChar d ≠ '-' ∧ digitChar d ≠ '\n' := by
  revert d; decide

/-- The characters 48 to 57 are the digits. -/
theorem exists_digitChar {c : Char} (h : 48 ≤ c.toNat ∧ c.toNat ≤ 57) : ∃ d, digitChar d = c := by
  refine ⟨⟨c.toNat - 48, by omega⟩, Char.ext (UInt32.toNat_inj.mp ?_)⟩
  have := digitChar_toNat ⟨c.toNat - 48, by omega⟩
  simp only [Char.toNat] at this h ⊢
  omega

/-- The loader's accumulator reads digits at their places. -/
theorem digitsValue_map_digitChar (acc : Nat) (ds : List (Fin 10)) :
    digitsValue acc (ds.map digitChar) = some (acc * 10 ^ ds.length + placeValue ds) := by
  induction ds generalizing acc with
  | nil => simp [digitsValue, placeValue]
  | cons d ds ih =>
    have hd : 48 ≤ (digitChar d).toNat ∧ (digitChar d).toNat ≤ 57 := by rw [digitChar_toNat]; omega
    have hs : (digitChar d).toNat - 48 = d := by rw [digitChar_toNat]; omega
    simp only [List.map_cons, digitsValue, hd, and_self, if_true, hs, ih, placeValue, List.length_cons,
      pow_succ]
    congr 1
    ring

/-- Whatever has a value is written in digits. -/
theorem exists_digits_of_digitsValue {acc n : Nat} {cs : List Char} (h : digitsValue acc cs = some n) :
    ∃ ds : List (Fin 10), cs = ds.map digitChar := by
  induction cs generalizing acc with
  | nil => exact ⟨[], rfl⟩
  | cons c cs ih =>
    simp only [digitsValue] at h
    split at h
    · obtain ⟨d, hd⟩ := exists_digitChar ‹_›
      obtain ⟨ds, rfl⟩ := ih h
      exact ⟨d :: ds, by simp [hd]⟩
    · cases h

theorem naturalValue_eq_some {cs : List Char} {n : Nat} :
    naturalValue cs = some n ↔ ∃ ds : List (Fin 10), ds ≠ [] ∧ cs = ds.map digitChar ∧ n = placeValue ds := by
  constructor
  · intro h
    cases cs with
    | nil => cases h
    | cons c cs =>
      obtain ⟨ds, hds⟩ := exists_digits_of_digitsValue (acc := 0) h
      refine ⟨ds, fun h0 => by simp [h0] at hds, hds, ?_⟩
      have := digitsValue_map_digitChar 0 ds
      rw [← hds, show digitsValue 0 (c :: cs) = some n from h] at this
      simpa using this
  · rintro ⟨ds, h0, rfl, rfl⟩
    cases ds with
    | nil => exact absurd rfl h0
    | cons d ds =>
      have := digitsValue_map_digitChar 0 (d :: ds)
      simpa [naturalValue] using this

/-! ### One integer -/

/-- A token is accepted exactly when it is an integer of the grammar that is a word, with its value. -/
theorem parseToken_eq_ok {W : Nat} {token : List Char} {v : Int} :
    parseToken W token = .ok v ↔ ∃ t : Token, t.Legal W ∧ token = t.text ∧ v = t.value := by
  constructor
  · intro h
    unfold parseToken at h
    simp only at h
    split at h
    · rename_i v' hv
      split at h
      · rename_i hw
        cases h
        split at hv
        · simp only [Option.map_eq_some_iff, naturalValue_eq_some] at hv
          obtain ⟨n, ⟨ds, h0, rfl, rfl⟩, rfl⟩ := hv
          exact ⟨⟨true, ds⟩, ⟨h0, hw⟩, rfl, rfl⟩
        · simp only [Option.map_eq_some_iff, naturalValue_eq_some] at hv
          obtain ⟨n, ⟨ds, h0, rfl, rfl⟩, rfl⟩ := hv
          exact ⟨⟨false, ds⟩, ⟨h0, hw⟩, rfl, rfl⟩
      · cases h
    · cases h
  · rintro ⟨⟨neg, ds⟩, ⟨h0, hw⟩, rfl, rfl⟩
    have hn := naturalValue_eq_some.mpr ⟨ds, h0, rfl, rfl⟩
    cases neg with
    | true =>
      simp only [Token.text, Token.value, if_true] at hw ⊢
      simp [parseToken, hn, hw]
    | false =>
      cases ds with
      | nil => exact absurd rfl h0
      | cons d ds =>
        simp only [Token.text, Token.value, Bool.false_eq_true, if_false, List.map_cons] at hn hw ⊢
        simp [parseToken, (digitChar_ne d).2.1, hn, hw]

theorem Token.mem_text {t : Token} {c : Char} (h : c ∈ t.text) : c = '-' ∨ ∃ d, c = digitChar d := by
  unfold Token.text at h
  split at h <;> simp only [List.mem_cons, List.mem_map] at h
  · rcases h with rfl | ⟨d, -, rfl⟩
    · exact .inl rfl
    · exact .inr ⟨d, rfl⟩
  · obtain ⟨d, -, rfl⟩ := h
    exact .inr ⟨d, rfl⟩

theorem Token.comma_not_mem (t : Token) : ',' ∉ t.text := fun h => by
  rcases Token.mem_text h with h | ⟨d, h⟩
  · revert h; decide
  · exact (digitChar_ne d).1 h.symm

/-- Every token in turn. -/
theorem parseTokens_eq_ok {W : Nat} {tokens : List (List Char)} {P : List Int} :
    parseTokens W tokens = .ok P ↔
      ∃ line : List Token, (∀ t ∈ line, t.Legal W) ∧ tokens = line.map Token.text ∧ P = line.map Token.value := by
  induction tokens generalizing P with
  | nil =>
    constructor
    · intro h
      cases h
      exact ⟨[], by simp, rfl, rfl⟩
    · rintro ⟨line, -, h, rfl⟩
      rw [List.map_eq_nil_iff.mp h.symm]
      rfl
  | cons token tokens ih =>
    simp only [parseTokens, except_bind_eq_ok, except_pure, parseToken_eq_ok, ih]
    constructor
    · rintro ⟨v, ⟨t, ht, rfl, rfl⟩, vs, ⟨line, hl, rfl, rfl⟩, h⟩
      cases h
      exact ⟨t :: line, List.forall_mem_cons.mpr ⟨ht, hl⟩, rfl, rfl⟩
    · rintro ⟨line, hl, h, rfl⟩
      cases line with
      | nil => cases h
      | cons t line =>
        obtain ⟨ht, hl⟩ := List.forall_mem_cons.mp hl
        obtain ⟨rfl, rfl⟩ := List.cons.inj h
        exact ⟨_, ⟨t, ht, rfl, rfl⟩, _, ⟨line, hl, rfl, rfl⟩, rfl⟩

/-! ### The commas and the line terminator -/

theorem splitTokens_ne_nil (cs : List Char) : splitTokens cs ≠ [] := by
  cases cs with
  | nil => simp [splitTokens]
  | cons c cs =>
    simp only [splitTokens]
    split
    · simp
    · split <;> simp

/-- What has no comma in it is the beginning of the first token. -/
theorem splitTokens_append {token : List Char} (h : ',' ∉ token) (cs : List Char) :
    splitTokens (token ++ cs) =
      (token ++ (splitTokens cs).head (splitTokens_ne_nil cs)) :: (splitTokens cs).tail := by
  induction token with
  | nil => simp
  | cons c token ih =>
    have hc : c ≠ ',' := fun hc => h (hc ▸ List.mem_cons_self)
    simp only [List.cons_append, splitTokens, hc, if_false, ih (fun hm => h (List.mem_cons_of_mem _ hm))]

/-- A line splits into its integers. -/
theorem splitTokens_lineText {line : List Token} (h : line ≠ []) :
    splitTokens (lineText line) = line.map Token.text := by
  induction line with
  | nil => exact absurd rfl h
  | cons t ts ih =>
    cases ts with
    | nil => simpa [lineText, splitTokens] using splitTokens_append t.comma_not_mem []
    | cons u ts =>
      have := ih (by simp)
      rw [lineText, splitTokens_append t.comma_not_mem]
      simp [splitTokens, this]

/-- Tokens with a comma between each two. -/
def joinTokens : List (List Char) → List Char
  | [] => []
  | [token] => token
  | token :: next :: rest => token ++ ',' :: joinTokens (next :: rest)

theorem joinTokens_map_text (line : List Token) : joinTokens (line.map Token.text) = lineText line := by
  induction line with
  | nil => rfl
  | cons t ts ih =>
    cases ts with
    | nil => rfl
    | cons u ts => exact congrArg (fun cs => t.text ++ ',' :: cs) ih

theorem joinTokens_splitTokens (cs : List Char) : joinTokens (splitTokens cs) = cs := by
  induction cs with
  | nil => rfl
  | cons c cs ih =>
    simp only [splitTokens]
    cases hs : splitTokens cs with
    | nil => exact absurd hs (splitTokens_ne_nil cs)
    | cons token tokens =>
      rw [hs] at ih
      split
      · rename_i hc
        simp [joinTokens, ih, hc]
      · cases tokens with
        | nil => simpa [joinTokens] using ih
        | cons next rest => simpa [joinTokens] using ih

/-- A text splits into the integers `line` exactly when it is their line. -/
theorem splitTokens_eq_map_text {line : List Token} {cs : List Char} :
    splitTokens cs = line.map Token.text ↔ line ≠ [] ∧ cs = lineText line := by
  constructor
  · intro h
    refine ⟨fun h0 => splitTokens_ne_nil cs (by rw [h, h0]; rfl), ?_⟩
    rw [← joinTokens_splitTokens cs, h, joinTokens_map_text]
  · rintro ⟨h, rfl⟩
    exact splitTokens_lineText h

/-- One line feed at the end is taken off, and nothing else. -/
theorem stripTerminator_eq {cs ds : List Char} (h : stripTerminator cs = ds) : cs = ds ∨ cs = ds ++ ['\n'] := by
  induction cs generalizing ds with
  | nil => exact .inl h
  | cons c cs ih =>
    cases cs with
    | nil =>
      simp only [stripTerminator] at h
      split at h
      · rename_i hc
        have : c = '\n' := Char.ext (UInt32.toNat_inj.mp hc)
        exact .inr (by rw [← h, this]; rfl)
      · exact .inl h
    | cons d cs =>
      subst h
      exact (ih rfl).imp (congrArg (c :: ·)) (congrArg (c :: ·))

theorem stripTerminator_append (cs : List Char) : stripTerminator (cs ++ ['\n']) = cs := by
  induction cs with
  | nil => rfl
  | cons c cs ih =>
    cases cs with
    | nil => rfl
    | cons d cs => exact congrArg (c :: ·) ih

theorem stripTerminator_of_not_mem {cs : List Char} (h : '\n' ∉ cs) : stripTerminator cs = cs := by
  rcases stripTerminator_eq (cs := cs) rfl with hs | hs
  · exact hs.symm
  · exact absurd (hs ▸ List.mem_append_right _ List.mem_cons_self) h

theorem mem_lineText {line : List Token} {c : Char} (h : c ∈ lineText line) :
    c = ',' ∨ c = '-' ∨ ∃ d, c = digitChar d := by
  induction line with
  | nil => cases h
  | cons t ts ih =>
    cases ts with
    | nil => exact .inr (Token.mem_text h)
    | cons u ts =>
      rw [lineText, List.mem_append, List.mem_cons] at h
      rcases h with h | h | h
      · exact .inr (Token.mem_text h)
      · exact .inl h
      · exact ih h

theorem newline_not_mem_lineText (line : List Token) : '\n' ∉ lineText line := fun h => by
  rcases mem_lineText h with h | h | ⟨d, h⟩
  · revert h; decide
  · revert h; decide
  · exact (digitChar_ne d).2.2 h.symm

theorem stripTerminator_of_isLineOf {W : Nat} {tokens : List Token} {text : List Char}
    (h : IsLineOf W tokens text) : stripTerminator text = lineText tokens := by
  obtain ⟨-, -, rfl | rfl⟩ := h
  · exact stripTerminator_of_not_mem (newline_not_mem_lineText tokens)
  · exact stripTerminator_append _

end Sys2Proof.Machine
end

