-- ==== Sys2Proof/Laws/PerInstr.lean ====
section
/-! SUPPORT. Statements for all instructions, one lemma per constructor. `EncodeLength`: an instruction
is encoded in `1 + n` cells, 1 to 4 of them (30_encoding.md R60, R64). -/

namespace Sys2Proof.Laws.EncodeLength

/-- The encoding of `i` has `L = 1 + n` cells, with `n` the opcode's operand count. -/
def Statement (i : Instr) : Prop :=
  (encode i).length = i.length ∧ i.length = 1 + i.opcode.arity ∧ i.length ≤ 4

theorem add (x y t : Operand) : Statement (.add x y t) := ⟨rfl, rfl, Nat.le_refl 4⟩
theorem mul (x y t : Operand) : Statement (.mul x y t) := ⟨rfl, rfl, Nat.le_refl 4⟩
theorem inp (t : Operand) : Statement (.inp t) := ⟨rfl, rfl, Nat.le_add_right 2 2⟩
theorem out (x : Operand) : Statement (.out x) := ⟨rfl, rfl, Nat.le_add_right 2 2⟩
theorem jt (x y : Operand) : Statement (.jt x y) := ⟨rfl, rfl, Nat.le_add_right 3 1⟩
theorem jf (x y : Operand) : Statement (.jf x y) := ⟨rfl, rfl, Nat.le_add_right 3 1⟩
theorem lt (x y t : Operand) : Statement (.lt x y t) := ⟨rfl, rfl, Nat.le_refl 4⟩
theorem eq (x y t : Operand) : Statement (.eq x y t) := ⟨rfl, rfl, Nat.le_refl 4⟩
theorem arb (x : Operand) : Statement (.arb x) := ⟨rfl, rfl, Nat.le_add_right 2 2⟩
theorem halt : Statement .halt := ⟨rfl, rfl, Nat.le_add_right 1 3⟩

end Sys2Proof.Laws.EncodeLength
end

