-- ==== Sys2Proof/Tests/Slice0.lean ====
section
/-! SUPPORT. The model's own tests. Expected results are those of spec/95_test_vectors.md (the vector's
name stands in the comment), at `W = 64`; then, for every statement with hypotheses, a named witness
that meets them. -/

namespace Sys2Proof.Tests

open Sys2Proof.Machine

/-- Reset with program `P` and inputs `I` at `W = 64`, Direct mode. -/
def st (P I : List Int) : State := State.load Config.suggested P I

/-- The same machine fed by a channel. -/
def stChannel (P I : List Int) : State := State.load { wordWidth := 64, ioBackend := .channel } P I

/-- The result is a next state with property `p`. -/
def nextIs (r : Result) (p : State → Bool) : Bool :=
  match r with
  | .next t => p t
  | .fault _ => false
  | .refused _ => false

/-- A step faults with cause `c` and keeps `pc`, memory and both queues (R157). -/
def faultsWith (s : State) (c : Cause) : Bool :=
  nextIs (step s) fun t => decide (t = { s with status := .faulted, cause := some c })

def pos (r : Int) : Operand := ⟨.position, r⟩
def imm (r : Int) : Operand := ⟨.immediate, r⟩
def rel (r : Int) : Operand := ⟨.relative, r⟩

/-! ### Well-formedness: a term for each check, which the check refuses -/

/-- An operand cell above `MAXW`, in each operand position of each format (R67). -/
theorem test_wf_refuses_wide_operand :
    Instr.wf 64 (.add (imm (2 ^ 63)) (imm 0) (pos 0)) = false ∧
    Instr.wf 64 (.mul (imm 0) (imm (-(2 ^ 63) - 1)) (pos 0)) = false ∧
    Instr.wf 64 (.lt (imm 0) (imm 0) (pos (2 ^ 63))) = false ∧
    Instr.wf 64 (.eq (imm (2 ^ 63)) (imm 0) (pos 0)) = false ∧
    Instr.wf 64 (.inp (pos (2 ^ 63))) = false ∧ Instr.wf 64 (.out (imm (2 ^ 63))) = false ∧
    Instr.wf 64 (.jt (imm (2 ^ 63)) (imm 0)) = false ∧ Instr.wf 64 (.jf (imm 0) (imm (2 ^ 63))) = false ∧
    Instr.wf 64 (.arb (imm (2 ^ 63))) = false := by decide

/-- Immediate on a write operand (R73). -/
theorem test_wf_refuses_immediate_target :
    Instr.wf 64 (.add (imm 1) (imm 1) (imm 0)) = false ∧ Instr.wf 64 (.mul (imm 1) (imm 1) (imm 0)) = false ∧
    Instr.wf 64 (.inp (imm 0)) = false ∧ Instr.wf 64 (.lt (imm 1) (imm 1) (imm 0)) = false ∧
    Instr.wf 64 (.eq (imm 1) (imm 1) (imm 0)) = false := by decide

/-- Both ends of the word range are operands. -/
theorem test_wf_accepts : Instr.wf 64 (.add (imm (-(2 ^ 63))) (rel (2 ^ 63 - 1)) (pos 0)) = true := by decide

/-! ### Decoding: words written out from the spec's digits `ABCDE` (R65) -/

theorem test_decode_add : decode [20101, 5, 6, 7] = .ok (.add (imm 5) (pos 6) (rel 7)) := by decide -- V-ENC2
theorem test_decode_mul : decode [1202, -1, 3, 0] = .ok (.mul (rel (-1)) (imm 3) (pos 0)) := by decide -- V-ENC3
theorem test_decode_in : decode [203, 0] = .ok (.inp (rel 0)) := by decide -- V-ENC4
theorem test_decode_out : decode [104, -5] = .ok (.out (imm (-5))) := by decide -- V-ENC5
theorem test_decode_jt : decode [1205, 2, 0] = .ok (.jt (rel 2) (imm 0)) := by decide -- V-ENC6
theorem test_decode_jf : decode [106, 0, 9] = .ok (.jf (imm 0) (pos 9)) := by decide -- V-ENC7
theorem test_decode_lt : decode [21107, 1, 2, 3] = .ok (.lt (imm 1) (imm 2) (rel 3)) := by decide -- V-DEC4
theorem test_decode_eq : decode [1108, -1, 8, 3] = .ok (.eq (imm (-1)) (imm 8) (pos 3)) := by decide -- V-ENC9
theorem test_decode_arb : decode [209, 0] = .ok (.arb (rel 0)) := by decide -- V-ENC10
theorem test_decode_halt : decode [99] = .ok .halt := by decide -- V-ENC11

/-- Ignored digits: V-DEC24 to V-DEC31. -/
theorem test_decode_ignores_unused_digits :
    decode [10099] = .ok .halt ∧ decode [1199] = .ok .halt ∧ decode [1003] = .ok (.inp (pos 0)) ∧
    decode [10105] = .ok (.jt (imm 0) (pos 0)) ∧ decode [20104] = .ok (.out (imm 0)) ∧
    decode [100001] = .ok (.add (pos 0) (pos 0) (pos 0)) ∧ decode [1000099] = .ok .halt := by decide

/-- Refused modes: V-DEC15 to V-DEC23, V-DEC27. -/
theorem test_decode_refuses_modes :
    decode [103] = .error (.invalidMode 1 1) ∧ decode [10001] = .error (.invalidMode 3 1) ∧
    decode [11108] = .error (.invalidMode 3 1) ∧ decode [301] = .error (.invalidMode 1 3) ∧
    decode [9002] = .error (.invalidMode 2 9) ∧ decode [93001] = .error (.invalidMode 2 3) ∧
    decode [399] = .error (.invalidMode 1 3) ∧ decode [30099] = .error (.invalidMode 3 3) ∧
    decode [30004] = .error (.invalidMode 3 3) ∧ decode [1103] = .error (.invalidMode 1 1) := by decide

/-- Refused opcodes: V-DEC32 to V-DEC41. -/
theorem test_decode_refuses_opcodes :
    decode [0] = .error (.malformedProgram 0) ∧ decode [10] = .error (.malformedProgram 10) ∧
    decode [98] = .error (.malformedProgram 98) ∧ decode [100] = .error (.malformedProgram 100) ∧
    decode [300] = .error (.malformedProgram 300) ∧ decode [-1] = .error (.malformedProgram (-1)) ∧
    decode [-99] = .error (.malformedProgram (-99)) ∧ decode [-199] = .error (.malformedProgram (-199)) := by
  decide

/-- V-ENC1 to V-ENC3, V-ENC11. -/
theorem test_encode :
    encode (.add (pos 5) (pos 6) (pos 7)) = [1, 5, 6, 7] ∧ encode (.add (imm 5) (pos 6) (rel 7)) = [20101, 5, 6, 7] ∧
    encode (.mul (rel (-1)) (imm 3) (pos 0)) = [1202, -1, 3, 0] ∧ encode .halt = [99] := by decide

/-- The host's reading of a word in bits: the first 64 bits are the instruction word. -/
theorem test_decode_table_word :
    decodeTableWord 64 22208 = some (.eq (rel 0) (rel 0) (rel 0)) ∧
    decodeTableWord 128 (104 + (2 ^ 64 - 5) * 2 ^ 64) = some (.out (imm (-5))) ∧
    decodeTableWord 64 103 = none := by decide

/-- A placed word is what the next step runs. -/
theorem test_with_fetch_word :
    step (State.reset.withFetchWord 64 99) = exec .halt (State.reset.withFetchWord 64 99) ∧
    step (State.reset.withFetchWord 64 109) = exec (.arb (imm 0)) (State.reset.withFetchWord 64 109) := ⟨rfl, rfl⟩

/-! ### Memory (V-MEM) -/

theorem test_memory_far_write : ((st [99] []).mem.write 1000 7) = ⟨[99], [(1000, 7)]⟩ := by decide -- V-MEM5
theorem test_memory_zero_write : ((st [99] []).mem.write 1000 7).write 1000 0 = ⟨[99], []⟩ := by decide -- V-MEM8
theorem test_memory_negative : (st [99] []).memRead (-1) = .error (.negativeAddress (-1)) := by decide -- V-MEM4

/-! ### The instructions -/

/-- V-ADD1 and V-ADD8. -/
theorem test_add : nextIs (step (st [1101, 5, -7, 0, 99] [])) (fun t =>
      decide (t.mem.prog = [-2, 5, -7, 0, 99]) && decide (t.pc = 4)) = true ∧
    faultsWith (st [1101, 2 ^ 63 - 1, 1, 0, 99] []) .arithmeticOverflow = true := by decide

/-- V-ADD13, V-ADD15, V-X4: the order of checks. -/
theorem test_add_checks : faultsWith (st [21101, 2, 3, -5, 99] []) (.negativeAddress (-5)) = true ∧
    faultsWith (st [1101, 2 ^ 63 - 1, 1, -1, 99] []) (.negativeAddress (-1)) = true ∧
    faultsWith (st [1, -1, -2, -3, 99] []) (.negativeAddress (-1)) = true := by decide

/-- V-MUL1, V-MUL4. -/
theorem test_mul : nextIs (step (st [1102, -3, 4, 0, 99] [])) (fun t =>
      decide (t.mem.prog = [-12, -3, 4, 0, 99]) && decide (t.pc = 4)) = true ∧
    faultsWith (st [1102, -(2 ^ 63), -1, 0, 99] []) .arithmeticOverflow = true := by decide

/-- V-MUL5, V-MUL6: the widest product. -/
theorem test_mul_edge : nextIs (step (st [1102, 3037000499, 3037000499, 0, 99] [])) (fun t =>
      decide (t.mem.read 0 = 9223372030926249001)) = true ∧
    faultsWith (st [1102, 3037000500, 3037000500, 0, 99] []) .arithmeticOverflow = true := by decide

/-- V-IN4, V-IN8. -/
theorem test_in : nextIs (step (st [3, 0, 99] [-9, 4])) (fun t =>
      decide (t.mem.prog = [-9, 0, 99]) && decide (t.inq = [4]) && decide (t.pc = 2)) = true ∧
    faultsWith (st [3, -1, 99] []) (.negativeAddress (-1)) = true ∧
    faultsWith (st [3, 0, 99] []) .inputExhausted = true := by decide

/-- R114: suspended with no value, completed by the next arrival. -/
theorem test_in_channel : nextIs (step (stChannel [3, 0, 99] [])) (fun t =>
      decide (t.status = .awaitingInput) && decide (t.pc = 0) &&
      nextIs (step (t.arrive 7)) fun u => decide (u.mem.prog = [7, 0, 99]) && decide (u.pc = 2)) = true := by decide

/-- V-OUT2, V-OUT5. -/
theorem test_out : nextIs (step (st [4, 0, 99] [])) (fun t => decide (t.outq = [4]) && decide (t.pc = 2)) = true ∧
    faultsWith (st [4, -1, 99] []) (.negativeAddress (-1)) = true := by decide

/-- V-J5, V-J8, V-J9. -/
theorem test_jt : nextIs (step (st [1105, -1, 4, 99] [])) (fun t => decide (t.pc = 4)) = true ∧
    nextIs (step (st [1105, 0, -3, 99] [])) (fun t => decide (t.pc = 3)) = true ∧
    faultsWith (st [105, 0, -3, 99] []) (.negativeAddress (-3)) = true := by decide

/-- V-J3, V-J4; a taken negative target as V-J7. -/
theorem test_jf : nextIs (step (st [1106, 0, 4, 99] [])) (fun t => decide (t.pc = 4)) = true ∧
    nextIs (step (st [1106, 5, 4, 99] [])) (fun t => decide (t.pc = 3)) = true ∧
    faultsWith (st [1106, 0, -3, 99] []) (.negativeAddress (-3)) = true := by decide

/-- V-CMP3, V-CMP5, V-CMP13: strict, signed, target among the sources. -/
theorem test_lt : nextIs (step (st [1107, 5, 5, 0, 99] [])) (fun t => decide (t.mem.read 0 = 0)) = true ∧
    nextIs (step (st [1107, -(2 ^ 63), 2 ^ 63 - 1, 0, 99] [])) (fun t => decide (t.mem.read 0 = 1)) = true ∧
    nextIs (step (st [7, 6, 5, 5, 99, 9, 3] [])) (fun t => decide (t.mem.prog = [7, 6, 5, 5, 99, 1, 3])) = true := by
  decide

/-- V-CMP9, V-CMP10. -/
theorem test_eq : nextIs (step (st [1108, 5, -5, 0, 99] [])) (fun t => decide (t.mem.read 0 = 0)) = true ∧
    nextIs (step (st [8, 0, 0, 0, 99] [])) (fun t => decide (t.mem.prog = [1, 0, 0, 0, 99])) = true := by decide

/-- V-ARB6 (second step, old base), V-ARB8. -/
theorem test_arb :
    nextIs (step { st [109, 4, 209, 0, 99] [] with pc := 2, rb := 4 }) (fun t => decide (t.rb = 103)) = true ∧
    faultsWith { st [109, 2 ^ 63 - 1, 109, 1, 99] [] with pc := 2, rb := 2 ^ 63 - 1 } .arithmeticOverflow = true := by
  decide

/-- V-H1; V-X7: no fall-through address above `MAXADDR`. -/
theorem test_halt : nextIs (step (st [99] [])) (fun t => decide (t.status = .halted)) = true ∧
    faultsWith { st [] [] with pc := 2 ^ 63 - 1, mem := ⟨[], [(2 ^ 63 - 1, 99)]⟩ } .arithmeticOverflow = true := by
  decide

/-- V-H5 and V-H7. -/
theorem test_no_step_after_end : faultsWith (st [] []) (.malformedProgram 0) = true ∧
    step { st [99] [] with status := .halted } = .fault .noStepHalted ∧
    step { st [99] [] with status := .faulted } = .fault .noStepFaulted := ⟨by decide, rfl, rfl⟩

/-! ### Loader (V-LD) -/

theorem test_load_accepts :
    parseProgram 64 ['1', '1', '0', '8', ',', '-', '1'] = .ok [1108, -1] ∧ -- as V-LD2
    parseProgram 64 ['9', '9', '\n'] = .ok [99] ∧ -- V-LD3
    parseProgram 64 ['0', '0', '7', ',', '-', '0'] = .ok [7, 0] := by decide -- V-LD4

theorem test_load_refuses :
    parseProgram 64 ['+', '5'] = .error .malformedProgram ∧ -- V-LD5
    parseProgram 64 ['1', ',', ' ', '2'] = .error .malformedProgram ∧ -- V-LD6
    parseProgram 64 ['1', ',', ',', '2'] = .error .malformedProgram ∧ -- V-LD7
    parseProgram 64 ['1', ','] = .error .malformedProgram ∧ -- V-LD8
    parseProgram 64 [] = .error .malformedProgram ∧ -- V-LD9
    parseProgram 8 ['1', '2', '8'] = .error .malformedProgram := by decide -- V-LD11 at W = 8

/-! ### Signals (R34) -/

theorem test_signals :
    stepSignal (st [104, -5, 99] []) = some (.producedOutput (-5)) ∧ stepSignal (st [99] []) = some .halt ∧
    stepSignal (st [1105, 1, 3, 99] []) = some .jump ∧ stepSignal (st [1105, 0, 3, 99] []) = some .none ∧
    stepSignal (st [3, 0, 99] [1]) = some .needsInput ∧
    stepSignal (st [3, 0, 99] []) = some (.fault .inputExhausted) := by decide

/-! ### Witnesses: each meets all hypotheses of its statement together -/

theorem witness_DecodeOfEncodeIsIdentity : Instr.wf 8 (.add (imm 127) (rel (-128)) (rel 0)) = true := by decide

theorem witness_DecodeSplitsWordByDecimalDigits : decode (521107 :: [1, 2, 3]) = .ok (.lt (imm 1) (imm 2) (rel 3)) := by
  decide

theorem witness_WordOfLegalDigitsDecodes : (0 : Int) ≤ 920003 ∧ (920003 : Int) % 100 = Opcode.inp.code ∧
    (∀ k, k < 3 → (920003 : Int) / 10 ^ (k + 2) % 10 ≤ 2) ∧
    (∀ k, Opcode.inp.writePos = some k → (920003 : Int) / 10 ^ (k + 1) % 10 ≠ 1) := by
  refine ⟨by decide, by decide, by decide, fun k hk => ?_⟩
  cases hk
  decide

theorem witness_LengthIsOnePlusOperandsAndAdvancesPc :
    (st [1105, 0, 9] []).status = .running ∧ (st [1105, 0, 9] []).fetch = .ok (.jt (imm 0) (imm 9)) ∧
    step (st [1105, 0, 9] []) = .next { st [1105, 0, 9] [] with pc := 3 } ∧
    ({ st [1105, 0, 9] [] with pc := 3 } : State).status ≠ .faulted ∧
    ({ st [1105, 0, 9] [] with pc := 3 } : State).status ≠ .awaitingInput ∧
    (∀ x y a, Instr.jt (imm 0) (imm 9) = .jt x y → (st [1105, 0, 9] []).rd x = .ok a → a = 0) ∧
    (∀ x y a, Instr.jt (imm 0) (imm 9) = .jf x y → (st [1105, 0, 9] []).rd x = .ok a → a ≠ 0) := by
  refine ⟨rfl, by decide, rfl, by decide, by decide, fun x y a h ha => ?_, fun x y a h => ?_⟩
  · cases h
    cases ha
    rfl
  · cases h

theorem witness_UnknownOpcodeRaisesMalformedProgram : (st [310] []).status = .running ∧
    0 ≤ (st [310] []).mem.read (st [310] []).pc ∧
    (st [310] []).mem.read (st [310] []).pc % 100 ∉ ([1, 2, 3, 4, 5, 6, 7, 8, 9, 99] : List Int) := by decide

theorem witness_IllegalWordsFaultInDecodeOrder :
    ((st [-1] []).status = .running ∧ (st [-1] []).mem.read (st [-1] []).pc = -1 ∧ (-1 : Int) < 0) ∧
    (st [93001] []).mem.read (st [93001] []).pc = 93001 ∧ (st [10001] []).mem.read (st [10001] []).pc = 10001 ∧
    ((93001 : Int) % 100 = Opcode.add.code ∧ 2 < dig 93001 (2 + 1) ∧ ∀ j, 1 ≤ j → j < 2 → dig 93001 (j + 1) ≤ 2) ∧
    ((10001 : Int) % 100 = Opcode.add.code ∧ (∀ k, 1 ≤ k → k ≤ 3 → dig 10001 (k + 1) ≤ 2) ∧
      Opcode.add.writePos = some 3 ∧ dig 10001 (3 + 1) = 1) := by
  refine ⟨by decide, by decide, by decide, ⟨by decide, by decide, fun j h1 h2 => ?_⟩, by decide, fun k h1 h2 => ?_, rfl, by decide⟩
  · obtain rfl : j = 1 := by omega
    decide
  · obtain rfl | rfl | rfl : k = 1 ∨ k = 2 ∨ k = 3 := by omega
    all_goals decide

theorem witness_StepRunsTheDecodedInstruction :
    decode [(st [99] []).mem.read 0, (st [99] []).mem.read 1, (st [99] []).mem.read 2, (st [99] []).mem.read 3]
      = .ok .halt ∧ (st [99] []).status = .running ∧
    ({ stChannel [3, 0] [5] with status := .awaitingInput } : State).status = .awaitingInput ∧
    ({ stChannel [3, 0] [5] with status := .awaitingInput } : State).inq ≠ [] ∧
    decode [(stChannel [3, 0] [5]).mem.read 0, (stChannel [3, 0] [5]).mem.read 1, (stChannel [3, 0] [5]).mem.read 2,
      (stChannel [3, 0] [5]).mem.read 3] = .ok (.inp (pos 0)) := by decide

theorem witness_StepExistsExactlyWhileRunning : (st [99] []).status = .running ∧
    ({ st [] [] with status := .halted } : State).status = .halted ∧
    ({ st [] [] with status := .faulted } : State).status = .faulted ∧
    ({ stChannel [] [] with status := .awaitingInput } : State).status = .awaitingInput ∧
    ({ stChannel [] [] with status := .awaitingInput } : State).inq = [] ∧
    ({ stChannel [] [1] with status := .awaitingInput } : State).inq ≠ [] := by decide

theorem witness_FetchRaisesNoAddressFault : (st [98] []).fetch = .error (.malformedProgram 98) ∧
    (st [301] []).fetch = .error (.invalidMode 1 3) ∧
    ({ st [] [] with pc := 2 ^ 63 - 1, mem := ⟨[], [(2 ^ 63 - 1, 1)]⟩ } : State).fetch = .error .arithmeticOverflow := by
  decide

theorem witness_FallThroughAboveMaxAddrFaults :
    maxAddr (st [] []).cfg.wordWidth < (({ st [] [] with pc := 2 ^ 63 - 1 } : State).pc : Int) + Instr.halt.length := by
  decide

theorem witness_ReadOperandResolution : (0 : Int) ≤ 0 ∧ (-1 : Int) < 0 ∧
    ¬ IsWord 64 (({ st [] [] with rb := 2 ^ 63 - 1 } : State).rb + 1) ∧
    (IsWord 64 ((st [] []).rb + -1) ∧ (st [] []).rb + -1 < 0) ∧
    (IsWord 64 ((st [] []).rb + 0) ∧ 0 ≤ (st [] []).rb + 0) := by decide

theorem witness_WriteTargetResolution : (0 : Int) ≤ 0 ∧ (-1 : Int) < 0 ∧
    ¬ IsWord 64 (({ st [] [] with rb := -(2 ^ 63) } : State).rb + -1) ∧
    (IsWord 64 ((st [] []).rb + -1) ∧ (st [] []).rb + -1 < 0) ∧
    (IsWord 64 ((st [] []).rb + 0) ∧ 0 ≤ (st [] []).rb + 0) := by decide

theorem witness_MemReadGivesCellEntryOrZero :
    ({ st [99] [] with mem := ⟨[99], [(1, 5)]⟩ } : State).mem.wf = true ∧ 0 < [(99 : Int)].length ∧
    ((1, 5) : Nat × Int) ∈ [((1, 5) : Nat × Int)] ∧ [(99 : Int)].length ≤ 2 ∧
    ∀ v : Int, (2, v) ∉ [((1, 5) : Nat × Int)] := by simp [Memory.wf, Memory.ovfWf]

theorem witness_MemWriteReadsBackAndFrames : (st [99] []).mem.wf = true ∧ (-3 : Int) < 0 ∧ (0 : Int) ≤ 0 := by decide

/-- The hypotheses of the four statements of format F3: a first failing check (operand 2), and a
completion at the last address where the instruction fits, with a result in and out of range. -/
theorem witness_format_f3 :
    firstError [errorOf ((st [] []).fallThrough 4), errorOf ((st [] []).rd (imm 1)),
      errorOf ((st [] []).rd (pos (-2))), errorOf ((st [] []).tgt 3 (pos (-3)))] = some (.negativeAddress (-2)) ∧
    (({ st [] [] with pc := 2 ^ 63 - 5 } : State).pc : Int) + 4 ≤ maxAddr 64 ∧
    (st [7] []).rd (pos 0) = .ok 7 ∧ (st [7] []).rd (imm (2 ^ 63 - 1)) = .ok (2 ^ 63 - 1) ∧
    (st [7] []).tgt 3 (rel 0) = .ok 0 ∧ IsWord 64 (7 + 7) ∧ IsWord 64 (7 * 7) ∧
    ¬ IsWord 64 (7 + (2 ^ 63 - 1)) ∧ ¬ IsWord 64 (7 * (2 ^ 63 - 1)) := by decide

theorem witness_AddStoresSum : ((st [7] []).pc : Int) + 4 ≤ maxAddr 64 ∧ (st [7] []).rd (pos 0) = .ok 7 ∧
    (st [7] []).rd (imm 1) = .ok 1 ∧ (st [7] []).tgt 3 (pos 0) = .ok 0 ∧ IsWord 64 (7 + 1) := by decide

theorem witness_MulStoresProduct : ((st [7] []).pc : Int) + 4 ≤ maxAddr 64 ∧ (st [7] []).rd (pos 0) = .ok 7 ∧
    (st [7] []).rd (imm (-1)) = .ok (-1) ∧ (st [7] []).tgt 3 (pos 0) = .ok 0 ∧ IsWord 64 (7 * -1) := by decide

theorem witness_LtStoresTruthOfLess : ((st [7] []).pc : Int) + 4 ≤ maxAddr 64 ∧ (st [7] []).rd (pos 0) = .ok 7 ∧
    (st [7] []).rd (imm 8) = .ok 8 ∧ (st [7] []).tgt 3 (rel 9) = .ok 9 := by decide

theorem witness_EqStoresTruthOfEqual : ((st [7] []).pc : Int) + 4 ≤ maxAddr 64 ∧ (st [7] []).rd (pos 0) = .ok 7 ∧
    (st [7] []).rd (rel 0) = .ok 7 ∧ (st [7] []).tgt 3 (pos 0) = .ok 0 := by decide

theorem witness_InConsumesAndStoresNextInput :
    firstError [errorOf ((st [] [5]).fallThrough 2), errorOf ((st [] [5]).tgt 1 (pos (-1)))]
      = some (.negativeAddress (-1)) ∧
    ((st [] [5]).pc : Int) + 2 ≤ maxAddr 64 ∧ (st [] [5]).tgt 1 (pos 3) = .ok 3 ∧ (st [] [5]).inq = 5 :: [] ∧
    (st [] []).inq = [] ∧ (st [] []).cfg.ioBackend = .direct := by decide

theorem witness_SuspendedInCompletesOnArrival : (stChannel [3, 0] []).cfg.ioBackend = .channel ∧
    (stChannel [3, 0] []).inq = [] ∧ (stChannel [3, 0] []).status = .running ∧
    (stChannel [3, 0] []).fetch = .ok (.inp (pos 0)) ∧ ((stChannel [3, 0] []).pc : Int) + 2 ≤ maxAddr 64 ∧
    (stChannel [3, 0] []).tgt 1 (pos 0) = .ok 0 := by decide

theorem witness_OutAppendsOperandValue :
    firstError [errorOf ((st [] []).fallThrough 2), errorOf ((st [] []).rd (rel (-1)))] = some (.negativeAddress (-1)) ∧
    ((st [] []).pc : Int) + 2 ≤ maxAddr 64 ∧ (st [] []).rd (pos 50) = .ok 0 := by decide

/-- The hypotheses of the statements of `JT` and `JF`, with a zero and a non-zero test, and targets 0 and
-1. -/
theorem witness_JtJumpsWhenNonzero_JfJumpsWhenZero :
    firstError [errorOf ((st [] []).fallThrough 3), errorOf ((st [] []).rd (imm 0)), errorOf ((st [] []).rd (pos (-3)))]
      = some (.negativeAddress (-3)) ∧
    ((st [] []).pc : Int) + 3 ≤ maxAddr 64 ∧ (st [] []).rd (imm 0) = .ok 0 ∧ (st [] []).rd (imm (-1)) = .ok (-1) ∧
    (-1 : Int) ≠ 0 ∧ (0 : Int) ≤ 0 ∧ (-1 : Int) < 0 := by decide

theorem witness_ArbAddsToRelativeBase :
    firstError [errorOf ((st [] []).fallThrough 2), errorOf ((st [] []).rd (pos (-1)))] = some (.negativeAddress (-1)) ∧
    ((st [] []).pc : Int) + 2 ≤ maxAddr 64 ∧ (st [] []).rd (imm (-5)) = .ok (-5) ∧ IsWord 64 ((st [] []).rb + -5) ∧
    ¬ IsWord 64 (({ st [] [] with rb := -(2 ^ 63) } : State).rb + -5) := by decide

theorem witness_HaltSetsHaltedOnly : ((st [99] []).pc : Int) + 1 ≤ maxAddr (st [99] []).cfg.wordWidth := by decide

theorem witness_FrameOfStoringInstructions : (Instr.inp (pos 9)).writeOperand = some (pos 9) ∧
    (Instr.inp (pos 9)).opcode.writePos = some 1 ∧ (st [] [5]).tgt 1 (pos 9) = .ok 9 ∧
    exec (.inp (pos 9)) (st [] [5]) = .next { st [] [] with mem := ⟨[], [(9, 5)]⟩, pc := 2 } := ⟨rfl, rfl, rfl, rfl⟩

/-- The same statement where the target does not resolve, and where an `IN` is suspended. -/
theorem witness_FrameOfStoringInstructions_unresolved_suspended :
    (Instr.add (imm 1) (imm 1) (pos (-1))).writeOperand = some (pos (-1)) ∧
    (Instr.add (imm 1) (imm 1) (pos (-1))).opcode.writePos = some 3 ∧
    (∀ addr, (st [] []).tgt 3 (pos (-1)) ≠ .ok addr) ∧
    exec (.add (imm 1) (imm 1) (pos (-1))) (st [] []) = .next ((st [] []).raise (.negativeAddress (-1))) ∧
    exec (.inp (pos 9)) (stChannel [] []) = .next (stChannel [] []).await :=
  ⟨rfl, rfl, fun addr h => (by cases h), rfl, rfl⟩

theorem witness_FrameOfNonStoringInstructions : (Instr.out (imm 3)).writeOperand = none ∧
    exec (.out (imm 3)) (st [] []) = .next { st [] [] with outq := [3], pc := 2 } := ⟨rfl, rfl⟩

theorem witness_ResetMeetsTheInvariant : (Config.mk 8 .direct).Valid ∧ AllWords 8 [127, -128] ∧ AllWords 8 [0] := by
  decide

/-- A state that meets the invariant, away from reset: a negative base, an overflow cell, output. -/
def invState : State :=
  { cfg := Config.suggested, mem := ⟨[109, -5, 99], [(7, 4)]⟩, pc := 0, rb := -3, status := .running, cause := none,
    inq := [1], outq := [2] }

theorem witness_StepKeepsTheInvariant : invState.Inv ∧ step invState = .next { invState with rb := -8, pc := 2 } :=
  ⟨{ config := by decide, pc := by decide, rb := by decide, memWf := by decide, memRange := by decide,
     inq := by decide, outq := by decide, cause := by decide, direct := by decide,
     awaiting := fun h => by cases h }, rfl⟩

theorem witness_EveryReachableStateMeetsTheInvariants : Config.suggested.Valid ∧ AllWords 64 [104, 3] ∧ AllWords 64 [9] ∧
    Reaches (st [104, 3] [9]) { st [104, 3] [9] with outq := [3], pc := 2 } ∧
    ({ st [99] [] with status := .halted } : State).Terminal :=
  ⟨by decide, by decide, by decide, .tail .refl rfl, .inl rfl⟩

theorem witness_TierOfACellIsUnobservable :
    (st [99] []).Alike { st [] [] with mem := ⟨[], [(0, 99)]⟩ } ∧ (st [99] []).mem.wf = true ∧
    Memory.wf ⟨[], [(0, 99)]⟩ = true ∧ step (st [99] []) = .next { st [99] [] with status := .halted, pc := 1 } :=
  ⟨{ cfg := rfl, pc := rfl, rb := rfl, status := rfl, cause := rfl, inq := rfl, outq := rfl,
     mem := fun a => by cases a <;> rfl }, by decide, by decide, rfl⟩

theorem witness_FaultWritesOnlyStatusAndCause :
    step (st [4, -1] []) = .next { st [4, -1] [] with status := .faulted, cause := some (.negativeAddress (-1)) } := rfl

theorem witness_OnlyArbChangesRelativeBase : step (st [109, 5] []) = .next { st [109, 5] [] with rb := 5, pc := 2 } ∧
    ({ st [109, 5] [] with rb := 5, pc := 2 } : State).rb ≠ (st [109, 5] []).rb := ⟨rfl, by decide⟩

theorem witness_OnlyHaltHaltsAndOnlyInSuspends :
    step (st [99] []) = .next { st [99] [] with status := .halted, pc := 1 } ∧
    step (stChannel [3, 0] []) = .next { stChannel [3, 0] [] with status := .awaitingInput } := ⟨rfl, rfl⟩

theorem witness_QueuesMoveOnlyByInAndOut :
    step (st [3, 1] [8]) = .next { st [3, 8] [] with pc := 2 } ∧
    step (st [104, 1] []) = .next { st [104, 1] [] with outq := [1], pc := 2 } := ⟨rfl, rfl⟩

theorem witness_StepStoresAtMostItsTargetCell : step (st [1101, 2, 3, 9] []) =
    .next { st [1101, 2, 3, 9] [] with mem := ⟨[1101, 2, 3, 9], [(9, 5)]⟩, pc := 4 } := rfl

/-- The source's full-run example S5, whose `ADD` makes the `MUL` after it; then `IN`, `EQ` and `LT`
storing the next instruction's word, and `MUL` one of its operand cells, at a Relative target. -/
theorem witness_StoredWordIsTheNextInstruction :
    (st [1, 1, 1, 4, 99, 5, 6, 0, 99] []).mem.wf = true ∧
    (st [1, 1, 1, 4, 99, 5, 6, 0, 99] []).status = .running ∧
    (st [1, 1, 1, 4, 99, 5, 6, 0, 99] []).fetch = .ok (.add (pos 1) (pos 1) (pos 4)) ∧
    StoresWord (.add (pos 1) (pos 1) (pos 4)) (st [1, 1, 1, 4, 99, 5, 6, 0, 99] []) 4 2 ∧
    ((4 : Nat) : Int) ≤ maxAddr 64 ∧
    decode [2, 5, 6, 0] = .ok (.mul (pos 5) (pos 6) (pos 0)) ∧
    (st [3, 2, 0] [99]).fetch = .ok (.inp (pos 2)) ∧ StoresWord (.inp (pos 2)) (st [3, 2, 0] [99]) 2 99 ∧
    decode [99, 0, 0, 0] = .ok .halt ∧
    StoresWord (.eq (imm 6) (imm 6) (pos 4)) (st [1108, 6, 6, 4, 99, 5, 6, 0] []) 4 1 ∧
    decode [1, 5, 6, 0] = .ok (.add (pos 5) (pos 6) (pos 0)) ∧
    StoresWord (.lt (imm 5) (imm 6) (pos 4)) (st [1107, 5, 6, 4, 99, 5, 6, 0] []) 4 1 ∧
    (st [21102, -2, 3, 5, 104, 9] []).fetch = .ok (.mul (imm (-2)) (imm 3) (rel 5)) ∧
    StoresWord (.mul (imm (-2)) (imm 3) (rel 5)) (st [21102, -2, 3, 5, 104, 9] []) 5 (-6) ∧
    decode [104, -6, 0, 0] = .ok (.out (imm (-6))) :=
  ⟨by decide, rfl, by decide, ⟨1, 1, rfl, rfl, rfl, rfl, by decide⟩, by decide, by decide, by decide,
    ⟨rfl, [], rfl⟩, by decide, ⟨6, 6, rfl, rfl, rfl, rfl⟩, by decide, ⟨5, 6, rfl, rfl, rfl, rfl⟩, by decide,
    ⟨-2, 3, rfl, rfl, rfl, rfl, by decide⟩, by decide⟩

theorem witness_SignalsReportWhatTheStepDid : (st [104, -5, 99] []).status = .running := rfl

/-- `007,-0` and a line feed (V-LD3, V-LD4) is a line and loads; `x` is none (as V-LD10). -/
theorem witness_LoadedTextGivesWords :
    IsLineOf 64 [⟨false, [0, 0, 7]⟩, ⟨true, [0]⟩] ['0', '0', '7', ',', '-', '0', '\n'] ∧
    loadText Config.suggested ['0', '0', '7', ',', '-', '0', '\n'] [4] = .ok (st [7, 0] [4]) ∧
    ∀ tokens, ¬ IsLineOf 64 tokens ['x'] := by
  refine ⟨⟨by decide, fun t ht => ?_, .inr (by decide)⟩, by decide, fun tokens h => ?_⟩
  · rcases List.mem_cons.mp ht with rfl | ht
    · exact ⟨by decide, by decide⟩
    · rw [List.mem_singleton.mp ht]
      exact ⟨by decide, by decide⟩
  · have hx : 'x' ∈ lineText tokens := stripTerminator_of_isLineOf h ▸ (by decide : 'x' ∈ stripTerminator ['x'])
    rcases mem_lineText hx with h | h | ⟨d, h⟩
    · revert h; decide
    · revert h; decide
    · revert d; decide

end Sys2Proof.Tests
end

section
/-! PROOFS. The state after reset (10_state.md R35): what memory reads as in each of its two tiers, and
the rows of the reset table. -/

namespace Sys2Proof.Machine

/-! ### The two tiers of memory (10_state.md R27, 20_memory.md R43) -/

theorem Memory.read_of_lt_length {m : Memory} {a : Nat} (h : a < m.prog.length) : m.read a = m.prog[a] :=
  (if_pos h).trans (List.getD_eq_getElem _ _ h)

theorem Memory.read_of_length_le {m : Memory} {a : Nat} (h : m.prog.length ≤ a) :
    m.read a = Memory.lookup m.ovf a :=
  if_neg (not_lt.mpr h)

/-! ### The freshly loaded machine -/

section
variable (cfg : Config) (P I : List Int)

@[simp] theorem State.load_pc : (State.load cfg P I).pc = 0 := rfl

@[simp] theorem State.load_rb : (State.load cfg P I).rb = 0 := rfl

@[simp] theorem State.load_status : (State.load cfg P I).status = .running := rfl

@[simp] theorem State.load_cause : (State.load cfg P I).cause = none := rfl

@[simp] theorem State.load_mem_prog : (State.load cfg P I).mem.prog = P := rfl

@[simp] theorem State.load_mem_ovf : (State.load cfg P I).mem.ovf = [] := rfl

@[simp] theorem State.load_inq : (State.load cfg P I).inq = I := rfl

@[simp] theorem State.load_outq : (State.load cfg P I).outq = [] := rfl

@[simp] theorem State.load_haltedFlag : (State.load cfg P I).haltedFlag = false := rfl

/-- The dense array of a loaded machine reads as the program. -/
theorem State.load_read_program {a : Nat} (h : a < P.length) : (State.load cfg P I).mem.read a = P[a] :=
  Memory.read_of_lt_length (m := (State.load cfg P I).mem) h

/-- Past the program nothing has been written yet, and unwritten memory reads 0 (R43). -/
theorem State.load_read_beyond {a : Nat} (h : P.length ≤ a) : (State.load cfg P I).mem.read a = 0 := by
  calc (State.load cfg P I).mem.read a
      = Memory.lookup (State.load cfg P I).mem.ovf a := Memory.read_of_length_le h
    _ = 0 := Memory.lookup_eq_zero_of_not_mem fun v => by simp

end

/-- Settles O29, row by row of the reset table: the registers and queues by their projections, the two
clauses on memory by the tier the address lies in. -/
theorem resetGivesTheSpecifiedState : Obligations.ResetGivesTheSpecifiedState := fun cfg P I =>
  ⟨State.load_pc cfg P I, State.load_rb cfg P I, State.load_status cfg P I, State.load_haltedFlag cfg P I,
    State.load_cause cfg P I, State.load_mem_prog cfg P I, State.load_mem_ovf cfg P I,
    fun _ => State.load_read_program cfg P I, fun _ => State.load_read_beyond cfg P I,
    State.load_inq cfg P I, State.load_outq cfg P I⟩

end Sys2Proof.Machine
end

section
/-! PROOFS. What a memory read returns at each kind of address (20_memory.md R43). -/

namespace Sys2Proof.Machine

/-- A listed address lies at or above `N` in canonical memory, so its entry is what is read. -/
theorem Memory.read_of_mem_ovf {m : Memory} (hwf : m.wf = true) {a : Nat} {v : Int} (h : (a, v) ∈ m.ovf) :
    m.read a = v := by
  obtain ⟨hlookup, hbound⟩ := Memory.lookup_of_mem hwf h
  exact (Memory.read_of_length_le hbound).trans hlookup

theorem Memory.read_of_not_mem_ovf {m : Memory} {a : Nat} (hbound : m.prog.length ≤ a)
    (h : ∀ v, (a, v) ∉ m.ovf) : m.read a = 0 :=
  (Memory.read_of_length_le hbound).trans (Memory.lookup_eq_zero_of_not_mem h)

/-- Settles O14: a negative address fails the address check; at any other the read is that of the cell,
by the tier that holds it. -/
theorem memReadGivesCellEntryOrZero : Obligations.MemReadGivesCellEntryOrZero := by
  intro s hwf
  refine ⟨fun a => State.memRead_of_neg, fun a h => ?program, fun a v h => ?entry, fun a hbound h => ?unlisted⟩
  case program => rw [State.memRead_natCast, Memory.read_of_lt_length h]
  case entry => rw [State.memRead_natCast, Memory.read_of_mem_ovf hwf h]
  case unlisted => rw [State.memRead_natCast, Memory.read_of_not_mem_ovf hbound h]

end Sys2Proof.Machine
end

section
/-! PROOFS. How a decode error of the instruction word travels through a step, and the words whose low
two digits are no opcode (30_encoding.md R70). -/

namespace Sys2Proof

/-- The ten opcode values of R66 are all there are. -/
theorem Opcode.code_mem (op : Opcode) : op.code ∈ [1, 2, 3, 4, 5, 6, 7, 8, 9, 99] := by
  cases op <;> decide

theorem Opcode.ofCode_eq_none {n : Nat} (h : n ∉ [1, 2, 3, 4, 5, 6, 7, 8, 9, 99]) : Opcode.ofCode n = none :=
  Option.eq_none_iff_forall_ne_some.mpr fun op hop => h (Opcode.ofCode_eq_some hop ▸ op.code_mem)

/-- The opcode is looked at before the mode digits, so these do not matter here (R70, R82). -/
theorem decodeHeader_of_ofCode_eq_none {w : Int} (h : Opcode.ofCode (w.toNat % 100) = none) :
    decodeHeader w = .error (.malformedProgram w) := by
  unfold decodeHeader
  by_cases hneg : w < 0
  · rw [if_pos hneg]
  · rw [if_neg hneg, h]

namespace Machine

/-- What the word at `pc` fails with is what the fetch fails with: no operand cell is read (R84). -/
theorem State.fetch_of_decodeHeader_error {s : State} {e : DecodeError}
    (h : decodeHeader (s.mem.read s.pc) = .error e) : s.fetch = .error (causeOf e) := by
  simp only [State.fetch, State.memRead_natCast, except_bind_ok, h, liftDecode_error, except_bind_error]

/-- A failing fetch ends the step of a running engine by entering the fault (R80, R157). -/
theorem step_of_fetch_error {s : State} {c : Cause} (hr : s.status = .running) (h : s.fetch = .error c) :
    step s = .next (s.raise c) := by
  simp only [step, hr, State.runInstruction, h]

/-- Settles O6: no opcode has the word's low two digits, so the word fails to decode, and the step enters
the fault its fetch fails with. -/
theorem unknownOpcodeRaisesMalformedProgram : Obligations.UnknownOpcodeRaisesMalformedProgram := by
  intro s hr hw hcode
  have hnone : Opcode.ofCode ((s.mem.read s.pc).toNat % 100) = none := by
    apply Opcode.ofCode_eq_none
    simp only [List.mem_cons, List.not_mem_nil, or_false] at hcode ⊢
    omega
  exact step_of_fetch_error hr (State.fetch_of_decodeHeader_error (decodeHeader_of_ofCode_eq_none hnone))

end Machine
end Sys2Proof
end

section
/-! PROOFS. The decoder through its header: what a list of cells decodes to, the three mode digits under
one quantifier (30_encoding.md R61), and the errors of a word with a legal opcode (R71 to R73, R83). -/

namespace Sys2Proof

/-! ### A list of cells decodes to what its header assembles -/

theorem decode_cons_eq_ok {w : Int} {cells : List Int} {i : Instr} :
    decode (w :: cells) = .ok i ↔ ∃ h, decodeHeader w = .ok h ∧ i = h.assemble cells := by
  have hw : rawAt (w :: cells) 0 = w := rfl
  unfold decode
  rw [hw, List.tail_cons]
  simp only [Machine.except_bind_eq_ok, Machine.except_pure, Except.ok.injEq, eq_comm (a := i)]

/-- Settles O1: the canonical word gives the header back, and the operand cells after it the operands. -/
theorem decodeOfEncodeIsIdentity : Obligations.DecodeOfEncodeIsIdentity := fun _ i rest hwf =>
  decode_cons_eq_ok.mpr
    ⟨i.header, decodeHeader_word (Instr.header_target hwf), (i.header_assemble rest).symm⟩

/-- Settles O4, by evaluating the decoder on each vector. -/
theorem specVectorsDecode : Obligations.SpecVectorsDecode := by
  unfold Obligations.SpecVectorsDecode
  decide

/-! ### Digits and modes -/

theorem natCast_dig {w : Int} (hw : 0 ≤ w) (k : Nat) : (dig w.toNat k : Int) = w / 10 ^ k % 10 := by
  unfold dig
  push_cast
  rw [Int.toNat_of_nonneg hw]

theorem natCast_toNat_mod {w : Int} (hw : 0 ≤ w) : ((w.toNat % 100 : Nat) : Int) = w % 100 := by
  push_cast
  rw [Int.toNat_of_nonneg hw]

theorem Opcode.arity_le (op : Opcode) : op.arity ≤ 3 := by cases op <;> decide

theorem Opcode.writePos_bounds {op : Opcode} {k : Nat} (h : op.writePos = some k) : 1 ≤ k ∧ k ≤ 3 := by
  cases op <;> cases h <;> decide

/-- The word's low two digits name the opcode `op`. -/
theorem Opcode.ofCode_toNat_mod {w : Int} {op : Opcode} (hw : 0 ≤ w) (h : w % 100 = op.code) :
    Opcode.ofCode (w.toNat % 100) = some op := by
  have hmod : w.toNat % 100 = op.code := by
    exact_mod_cast (natCast_toNat_mod hw).trans h
  rw [hmod, Opcode.ofCode_code]

theorem Mode.exists_ofDigit {d : Nat} (h : d ≤ 2) : ∃ m, Mode.ofDigit d = some m :=
  Option.ne_none_iff_exists'.mp fun hn => absurd (Mode.ofDigit_eq_none.mp hn) (by omega)

/-- `decodeHeader_eq_ok` with the three mode digits under one quantifier: position `k` has the mode
that digit `k + 1` names (R61). -/
theorem decodeHeader_eq_ok_modes {w : Int} {h : Header} :
    decodeHeader w = .ok h ↔
      0 ≤ w ∧ Opcode.ofCode (w.toNat % 100) = some h.op ∧
      (∀ k, 1 ≤ k → k ≤ 3 → Mode.ofDigit (dig w.toNat (k + 1)) = some (h.mode k)) ∧
      ∀ k, h.op.writePos = some k → h.mode k ≠ .immediate := by
  rw [decodeHeader_eq_ok]
  constructor
  · rintro ⟨hw, hop, h1, h2, h3, ht⟩
    refine ⟨hw, hop, fun k hk hk' => ?_, ht⟩
    obtain rfl | rfl | rfl : k = 1 ∨ k = 2 ∨ k = 3 := by omega
    · exact h1
    · exact h2
    · exact h3
  · rintro ⟨hw, hop, hm, ht⟩
    exact ⟨hw, hop, hm 1 (by decide) (by decide), hm 2 (by decide) (by decide), hm 3 (by decide) (by decide), ht⟩

/-- Operand `k`, counted from 0, has the mode of position `k + 1` and the `k`-th operand cell (R60). -/
theorem Header.assemble_operands (h : Header) (cells : List Int) :
    (h.assemble cells).operands = (List.range h.op.arity).map fun k => ⟨h.mode (k + 1), rawAt cells k⟩ := by
  obtain ⟨op, m1, m2, m3⟩ := h
  cases op <;> rfl

theorem Header.operand_of_assemble {h : Header} {cells : List Int} {k : Nat} {o : Operand}
    (ho : (h.assemble cells).operands[k]? = some o) : k < 3 ∧ o = ⟨h.mode (k + 1), rawAt cells k⟩ := by
  rw [Header.assemble_operands, List.getElem?_map, Option.map_eq_some_iff] at ho
  obtain ⟨j, hj, rfl⟩ := ho
  obtain ⟨hk, rfl⟩ := List.getElem?_eq_some_iff.mp hj
  rw [List.length_range] at hk
  exact ⟨hk.trans_le h.op.arity_le, by rw [List.getElem_range]⟩

/-- Settles O2: the header splits the word, and each operand takes its mode and its cell from it. -/
theorem decodeSplitsWordByDecimalDigits : Obligations.DecodeSplitsWordByDecimalDigits := by
  intro w cells i hdec
  obtain ⟨h, hh, rfl⟩ := decode_cons_eq_ok.mp hdec
  obtain ⟨hw, hop, hmodes, -⟩ := decodeHeader_eq_ok_modes.mp hh
  refine ⟨hw, ?_, fun k o ho => ?_⟩
  · rw [Header.assemble_opcode, Opcode.ofCode_eq_some hop, natCast_toNat_mod hw]
  · obtain ⟨hk, rfl⟩ := Header.operand_of_assemble ho
    have hm := Mode.ofDigit_eq_some (hmodes (k + 1) (by omega) (by omega))
    exact ⟨by rw [hm, natCast_dig hw], rfl⟩

/-- Legal digits name the modes of a header. -/
theorem exists_header_modes {w : Nat} (op : Opcode) (h : ∀ k, 1 ≤ k → k ≤ 3 → dig w (k + 1) ≤ 2) :
    ∃ g : Header, g.op = op ∧ ∀ k, 1 ≤ k → k ≤ 3 → Mode.ofDigit (dig w (k + 1)) = some (g.mode k) := by
  obtain ⟨m1, h1⟩ := Mode.exists_ofDigit (h 1 (by decide) (by decide))
  obtain ⟨m2, h2⟩ := Mode.exists_ofDigit (h 2 (by decide) (by decide))
  obtain ⟨m3, h3⟩ := Mode.exists_ofDigit (h 3 (by decide) (by decide))
  refine ⟨⟨op, m1, m2, m3⟩, rfl, fun k hk hk' => ?_⟩
  obtain rfl | rfl | rfl : k = 1 ∨ k = 2 ∨ k = 3 := by omega
  · exact h1
  · exact h2
  · exact h3

/-- Settles O3: the legal digits name a header, whose write operand is not Immediate because only the
digit 1 names that mode. -/
theorem wordOfLegalDigitsDecodes : Obligations.WordOfLegalDigitsDecodes := by
  intro w cells op hw hcode hdigits htarget
  have hle : ∀ k, 1 ≤ k → k ≤ 3 → dig w.toNat (k + 1) ≤ 2 := by
    intro k hk hk'
    have hd := hdigits (k - 1) (by omega)
    rw [show k - 1 + 2 = k + 1 by omega, ← natCast_dig hw] at hd
    exact_mod_cast hd
  obtain ⟨h, rfl, hmodes⟩ := exists_header_modes op hle
  refine ⟨h.assemble cells, decode_cons_eq_ok.mpr ⟨h, ?_, rfl⟩, h.assemble_opcode cells⟩
  refine decodeHeader_eq_ok_modes.mpr ⟨hw, Opcode.ofCode_toNat_mod hw hcode, hmodes, fun k hk himm => ?_⟩
  obtain ⟨hk1, hk3⟩ := Opcode.writePos_bounds hk
  have hone : dig w.toNat (k + 1) = 1 := by
    rw [← Mode.ofDigit_eq_some (hmodes k hk1 hk3), himm]
    rfl
  apply htarget k hk
  rw [← natCast_dig hw, hone]
  rfl

/-! ### The errors of a word with a legal opcode -/

theorem modeAt_of_le {w k : Nat} (h : dig w (k + 1) ≤ 2) : ∃ m, modeAt w k = .ok m := by
  obtain ⟨m, hm⟩ := Mode.exists_ofDigit h
  exact ⟨m, modeAt_eq_ok.mpr hm⟩

theorem decodeHeader_of_neg {w : Int} (h : w < 0) : decodeHeader w = .error (.malformedProgram w) := if_pos h

/-- Past the opcode the checks are those of the mode digits and of the write operand (R83). -/
theorem decodeHeader_of_code {w : Int} {op : Opcode} (hw : 0 ≤ w) (h : w % 100 = op.code) :
    decodeHeader w =
      (modeAt w.toNat 1 >>= fun m1 => modeAt w.toNat 2 >>= fun m2 => modeAt w.toNat 3 >>= fun m3 =>
        Header.checkTarget ⟨op, m1, m2, m3⟩) := by
  unfold decodeHeader
  rw [if_neg (not_lt.mpr hw), Opcode.ofCode_toNat_mod hw h]

/-- The lowest mode digit above 2 is reported, whether its operand is used or not (R72, R83). -/
theorem decodeHeader_of_illegal_digit {w : Int} {op : Opcode} {k : Nat} (hw : 0 ≤ w) (h : w % 100 = op.code)
    (hk1 : 1 ≤ k) (hk3 : k ≤ 3) (hd : 2 < dig w.toNat (k + 1))
    (hlow : ∀ j, 1 ≤ j → j < k → dig w.toNat (j + 1) ≤ 2) :
    decodeHeader w = .error (.invalidMode k (dig w.toNat (k + 1))) := by
  have hk : modeAt w.toNat k = .error (.invalidMode k (dig w.toNat (k + 1))) := modeAt_eq_error.mpr ⟨hd, rfl⟩
  have hok : ∀ j, 1 ≤ j → j < k → ∃ m, modeAt w.toNat j = .ok m := fun j h1 h2 => modeAt_of_le (hlow j h1 h2)
  rw [decodeHeader_of_code hw h]
  obtain rfl | rfl | rfl : k = 1 ∨ k = 2 ∨ k = 3 := by omega
  · rw [hk]; rfl
  · obtain ⟨m1, h1⟩ := hok 1 (by decide) (by decide)
    rw [h1, hk]; rfl
  · obtain ⟨m1, h1⟩ := hok 1 (by decide) (by decide)
    obtain ⟨m2, h2⟩ := hok 2 (by decide) (by decide)
    rw [h1, h2, hk]; rfl

/-- With legal mode digits, Immediate on the write operand is reported (R73, R83). -/
theorem decodeHeader_of_immediate_target {w : Int} {op : Opcode} {k : Nat} (hw : 0 ≤ w)
    (h : w % 100 = op.code) (hle : ∀ j, 1 ≤ j → j ≤ 3 → dig w.toNat (j + 1) ≤ 2)
    (hk : op.writePos = some k) (hone : dig w.toNat (k + 1) = 1) :
    decodeHeader w = .error (.invalidMode k 1) := by
  obtain ⟨g, rfl, hmodes⟩ := exists_header_modes op hle
  obtain ⟨hk1, hk3⟩ := Opcode.writePos_bounds hk
  have himm : g.mode k = .immediate := by
    have hm := hmodes k hk1 hk3
    rw [hone] at hm
    exact (Option.some.inj hm).symm
  rw [decodeHeader_of_code hw h, modeAt_eq_ok.mpr (hmodes 1 (by decide) (by decide)),
    modeAt_eq_ok.mpr (hmodes 2 (by decide) (by decide)), modeAt_eq_ok.mpr (hmodes 3 (by decide) (by decide))]
  exact Header.checkTarget_eq_error.mpr ⟨k, hk, himm, rfl⟩

/-- Whatever word fails to decode is malformed or has an illegal mode digit. -/
theorem decodeHeader_error_cases {w : Int} {e : DecodeError} (h : decodeHeader w = .error e) :
    e = .malformedProgram w ∨ ∃ k d, e = .invalidMode k d := by
  unfold decodeHeader at h
  split at h
  · exact .inl (Except.error.inj h).symm
  · split at h
    · exact .inl (Except.error.inj h).symm
    · simp only [Machine.except_bind_eq_error, modeAt_eq_error, Header.checkTarget_eq_error] at h
      rcases h with ⟨-, rfl⟩ | ⟨_, -, ⟨-, rfl⟩ | ⟨_, -, ⟨-, rfl⟩ | ⟨_, -, _, -, -, rfl⟩⟩⟩
      all_goals exact .inr ⟨_, _, rfl⟩

namespace Machine

/-- Settles O7: the step enters the fault that the word's header fails with. -/
theorem illegalWordsFaultInDecodeOrder : Obligations.IllegalWordsFaultInDecodeOrder := by
  intro s w hr hread
  have key : ∀ e, decodeHeader w = .error e → step s = .next (s.raise (causeOf e)) := fun e he =>
    step_of_fetch_error hr (State.fetch_of_decodeHeader_error (hread ▸ he))
  exact ⟨fun hneg => key _ (decodeHeader_of_neg hneg), fun op hw hcode =>
    ⟨fun k hk1 hk3 hd hlow => key _ (decodeHeader_of_illegal_digit hw hcode hk1 hk3 hd hlow),
      fun hle k hk hone => key _ (decodeHeader_of_immediate_target hw hcode hle hk hone)⟩⟩

end Machine
end Sys2Proof
end

section
/-! PROOFS. The invariant of 10_state.md R36: what each state update needs to keep it, and that every
reset and every step does. -/

namespace Sys2Proof

theorem Operand.wf_of_wfTarget {W : Nat} {o : Operand} (h : o.wfTarget W = true) : o.wf W = true :=
  (Bool.and_eq_true_iff.mp h).1

namespace Machine

/-! ### The invariant at reset (R35) -/

theorem allWords_nil (W : Nat) : AllWords W [] := fun _ hv => absurd hv List.not_mem_nil

theorem State.load_inv {cfg : Config} {P I : List Int} (hc : cfg.Valid) (hP : AllWords cfg.wordWidth P)
    (hI : AllWords cfg.wordWidth I) : (State.load cfg P I).Inv where
  config := hc
  pc := maxWord_nonneg _
  rb := Memory.isWord_zero _
  memWf := State.load_mem_wf cfg P I
  memRange := ⟨hP, fun _ he => absurd he List.not_mem_nil⟩
  inq := hI
  outq := allWords_nil _
  cause := by simp
  direct := fun _ => by simp
  awaiting := fun h => by cases h

/-- Settles O30: the model's reset state is the load of no program and no inputs. -/
theorem resetMeetsTheInvariant : Obligations.ResetMeetsTheInvariant :=
  ⟨State.reset_eq_load ▸ State.load_inv (by decide) (allWords_nil _) (allWords_nil _), fun _ _ _ => State.load_inv⟩

/-! ### The invariant and the state updates

Each update of an engine that is not suspended keeps the invariant, given that the value written is in
its range. -/

section
variable {s : State} (h : s.Inv) (hs : s.status ≠ .awaitingInput)
include h hs

theorem State.Inv.setPc {t : Int} (h0 : 0 ≤ t) (ht : t ≤ maxAddr s.cfg.wordWidth) : (s.setPc t).Inv :=
  { h with
    pc := by rw [State.setPc_pc, Int.toNat_of_nonneg h0]; exact ht
    awaiting := fun e => absurd e hs }

theorem State.Inv.setPc_fallThrough {L : Nat} {next : Int} (hn : s.fallThrough L = .ok next) :
    (s.setPc next).Inv := by
  obtain ⟨hle, rfl⟩ := State.fallThrough_eq_ok.mp hn
  exact h.setPc hs (by omega) hle

theorem State.Inv.setRb {r : Int} (hr : IsWord s.cfg.wordWidth r) : (s.setRb r).Inv :=
  { h with rb := hr, awaiting := fun e => absurd e hs }

theorem State.Inv.store {a : Nat} {v : Int} (ha : (a : Int) ≤ maxAddr s.cfg.wordWidth)
    (hv : IsWord s.cfg.wordWidth v) : (s.store a v).Inv :=
  { h with
    memWf := Memory.write_wf h.memWf a v
    memRange := Memory.write_inRange h.memRange ha hv
    awaiting := fun e => absurd e hs }

/-- The store at a resolved target (R87). -/
theorem State.Inv.store_tgt {k : Nat} {o : Operand} {addr v : Int} (ho : o.wfTarget s.cfg.wordWidth = true)
    (ht : s.tgt k o = .ok addr) (hv : IsWord s.cfg.wordWidth v) : (s.store addr.toNat v).Inv := by
  refine h.store hs ?_ hv
  rw [Int.toNat_of_nonneg (State.tgt_nonneg ht)]
  exact State.tgt_le (Operand.wf_of_wfTarget ho) ht

theorem State.Inv.setInq {q : List Int} (hq : AllWords s.cfg.wordWidth q) : (s.setInq q).Inv :=
  { h with inq := hq, awaiting := fun e => absurd e hs }

theorem State.Inv.outEmit {v : Int} (hv : IsWord s.cfg.wordWidth v) : (s.outEmit v).Inv :=
  { h with
    outq := List.forall_mem_append.mpr ⟨h.outq, List.forall_mem_singleton.mpr hv⟩
    awaiting := fun e => absurd e hs }

end

theorem State.Inv.cause_eq_none {s : State} (h : s.Inv) (hs : s.status ≠ .faulted) : s.cause = none :=
  Option.not_isSome_iff_eq_none.mp fun hc => hs (h.cause.mp hc)

theorem State.Inv.setHalted {s : State} (h : s.Inv) (hs : s.status = .running) : s.setHalted.Inv :=
  { h with
    cause := by simp [h.cause_eq_none (by simp [hs])]
    direct := fun _ => by simp
    awaiting := fun e => by cases e }

theorem State.Inv.raise {s : State} (h : s.Inv) (c : Cause) : (s.raise c).Inv :=
  { h with
    cause := by simp
    direct := fun _ => by simp
    awaiting := fun e => by cases e }

theorem State.Inv.resume {s : State} (h : s.Inv) (hs : s.status = .awaitingInput) : s.resume.Inv :=
  { h with
    cause := by simp [h.cause_eq_none (by simp [hs])]
    direct := fun _ => by simp
    awaiting := fun e => by cases e }

/-- A suspended engine is still in the `IN` it had fetched (R114). -/
theorem State.Inv.await {s : State} (h : s.Inv) (hs : s.status = .running) (hb : s.cfg.ioBackend = .channel)
    (hin : s.SuspendedInIn) : s.await.Inv :=
  { h with
    cause := by simp [h.cause_eq_none (by simp [hs])]
    direct := fun hd => by simp [hb] at hd
    awaiting := fun _ => by
      obtain ⟨t, next, addr, hf, hn, ht⟩ := hin
      exact ⟨t, next, addr, (State.fetch_congr (s := s.await) (t := s) rfl rfl rfl).trans hf, hn, ht⟩ }

/-! ### The invariant and the instructions -/

theorem isWord_truthWord {W : Nat} (h : 8 ≤ W) (p : Bool) : IsWord W (truthWord p) := by
  cases p
  · exact Memory.isWord_zero W
  · exact isWord_one h

/-- The four instructions that store a result keep the invariant when the result is a word. -/
theorem Stored.inv {s u : State} {x y t : Operand} {P : Int → Int → Int → Prop} (hu : Stored s u x y t P)
    (h : s.Inv) (hs : s.status ≠ .awaitingInput) (ho : t.wfTarget s.cfg.wordWidth = true)
    (hP : ∀ a b v, P a b v → IsWord s.cfg.wordWidth v) : u.Inv := by
  obtain ⟨next, a, b, addr, v, hn, -, -, ht, hv, rfl⟩ := hu
  exact (h.store_tgt hs ho ht (hP a b v hv)).setPc_fallThrough hs hn

theorem Jumped.inv {s u : State} {x y : Operand} {taken : Int → Bool} (hu : Jumped s u x y taken)
    (h : s.Inv) (hs : s.status ≠ .awaitingInput) (ho : y.wf s.cfg.wordWidth = true) : u.Inv := by
  obtain ⟨next, a, b, hn, -, hb, ⟨-, h0, rfl⟩ | ⟨-, rfl⟩⟩ := hu
  · exact h.setPc hs h0 (State.rd_isWord h.memRange ho hb).2
  · exact h.setPc_fallThrough hs hn

/-- Every instruction that runs to its end keeps the invariant. -/
theorem Completed.inv {i : Instr} {s u : State} (hc : Completed i s u) (h : s.Inv) (hs : s.status = .running)
    (hf : s.fetch = .ok i) : u.Inv := by
  have hna : s.status ≠ .awaitingInput := by simp [hs]
  have hwf := State.fetch_wf h.memRange hf
  cases i with
  | add x y t =>
    simp only [Instr.wf, Bool.and_eq_true] at hwf
    exact Stored.inv hc h hna hwf.2 fun a b v hv => hv.2 ▸ hv.1
  | mul x y t =>
    simp only [Instr.wf, Bool.and_eq_true] at hwf
    exact Stored.inv hc h hna hwf.2 fun a b v hv => hv.2 ▸ hv.1
  | lt x y t =>
    simp only [Instr.wf, Bool.and_eq_true] at hwf
    exact Stored.inv hc h hna hwf.2 fun a b v hv => hv ▸ isWord_truthWord h.config _
  | eq x y t =>
    simp only [Instr.wf, Bool.and_eq_true] at hwf
    exact Stored.inv hc h hna hwf.2 fun a b v hv => hv ▸ isWord_truthWord h.config _
  | jt x y =>
    simp only [Instr.wf, Bool.and_eq_true] at hwf
    exact Jumped.inv hc h hna hwf.2
  | jf x y =>
    simp only [Instr.wf, Bool.and_eq_true] at hwf
    exact Jumped.inv hc h hna hwf.2
  | inp t =>
    obtain ⟨next, addr, hn, ht, ⟨v, rest, hq, rfl⟩ | ⟨-, hb, rfl⟩⟩ := hc
    · obtain ⟨hv, hrest⟩ := List.forall_mem_cons.mp (hq ▸ h.inq)
      exact ((h.setInq hna hrest).store_tgt hna hwf ht hv).setPc_fallThrough hna hn
    · exact h.await hs hb ⟨t, next, addr, hf, hn, ht⟩
  | out x =>
    obtain ⟨next, v, hn, hv, rfl⟩ := hc
    exact (h.outEmit hna (State.rd_isWord h.memRange hwf hv)).setPc_fallThrough hna hn
  | arb x =>
    obtain ⟨next, a, hn, -, hr, rfl⟩ := hc
    exact (h.setRb hna hr).setPc_fallThrough hna hn
  | halt =>
    obtain ⟨next, hn, rfl⟩ := hc
    exact (h.setHalted hs).setPc_fallThrough (by simp) hn

theorem State.Inv.runInstruction {s u : State} (h : s.Inv) (hs : s.status = .running)
    (hu : s.runInstruction = .next u) : u.Inv := by
  rcases State.runInstruction_cases hu with ⟨c, rfl⟩ | ⟨i, hf, hc⟩
  · exact h.raise c
  · exact hc.inv h hs hf

/-- Settles O31: a step is the run of one instruction, begun in the state itself or in the resumed one. -/
theorem stepKeepsTheInvariant : Obligations.StepKeepsTheInvariant := by
  intro s u h hstep
  rcases step_cases hstep with ⟨hs, hu⟩ | ⟨hs, -, hu⟩
  · exact h.runInstruction hs hu
  · exact (h.resume hs).runInstruction s.resume_status hu

end Machine
end Sys2Proof
end

section
/-! PROOFS. The tier a cell lives in cannot be observed (10_state.md R27, 20_memory.md R41): two machines
whose cells read alike answer alike to every check, every instruction and every step. -/

namespace Sys2Proof.Machine

/-! ### What alike states answer -/

section
variable {s t : State} (h : s.Alike t)
include h

theorem State.Alike.chk (v : Int) : s.chk v = t.chk v := by simp only [State.chk, h.cfg]

theorem State.Alike.fallThrough (L : Nat) : s.fallThrough L = t.fallThrough L := by
  simp only [State.fallThrough, h.pc, h.chk]

theorem State.Alike.memRead (a : Int) : s.memRead a = t.memRead a := by simp only [State.memRead, h.mem]

theorem State.Alike.relativeAddress (r : Int) : s.relativeAddress r = t.relativeAddress r := by
  simp only [State.relativeAddress, h.rb, h.chk]

theorem State.Alike.rd (o : Operand) : s.rd o = t.rd o := by
  simp only [State.rd, h.memRead, h.relativeAddress]

theorem State.Alike.tgt (k : Nat) (o : Operand) : s.tgt k o = t.tgt k o := by
  simp only [State.tgt, h.relativeAddress]

theorem State.Alike.readCells (a : Int) (n : Nat) : s.readCells a n = t.readCells a n := by
  induction n generalizing a with
  | zero => rfl
  | succ n ih => simp only [State.readCells, h.chk, h.memRead, ih]

theorem State.Alike.fetch : s.fetch = t.fetch := by
  simp only [State.fetch, h.pc, h.memRead, h.readCells]

theorem State.Alike.observe : s.observe = t.observe := by
  simp only [State.observe, h.status, h.outq, h.mem]

theorem State.Alike.completedSignal (i : Instr) : completedSignal i s = completedSignal i t := by
  cases i <;> simp only [Machine.completedSignal, h.rd]

end

/-! ### Alike states with canonical memory, and the updates that keep them so -/

/-- Alike, and both memories canonical. -/
structure State.Twin (s t : State) : Prop where
  alike : s.Alike t
  left  : s.mem.wf = true
  right : t.mem.wf = true

section
variable {s t : State} (h : s.Twin t)
include h

theorem State.Twin.setPc (n : Int) : (s.setPc n).Twin (t.setPc n) :=
  { h with alike := { h.alike with pc := rfl } }

theorem State.Twin.setRb (r : Int) : (s.setRb r).Twin (t.setRb r) :=
  { h with alike := { h.alike with rb := rfl } }

theorem State.Twin.setHalted : s.setHalted.Twin t.setHalted :=
  { h with alike := { h.alike with status := rfl } }

theorem State.Twin.setInq (q : List Int) : (s.setInq q).Twin (t.setInq q) :=
  { h with alike := { h.alike with inq := rfl } }

theorem State.Twin.outEmit (v : Int) : (s.outEmit v).Twin (t.outEmit v) :=
  { h with alike := { h.alike with outq := congrArg (· ++ [v]) h.alike.outq } }

theorem State.Twin.await : s.await.Twin t.await :=
  { h with alike := { h.alike with status := rfl } }

theorem State.Twin.resume : s.resume.Twin t.resume :=
  { h with alike := { h.alike with status := rfl } }

theorem State.Twin.raise (c : Cause) : (s.raise c).Twin (t.raise c) :=
  { h with alike := { h.alike with status := rfl, cause := rfl } }

/-- A store may go to the dense array of one machine and to the overflow map of the other; either
way the cell reads back the word and the others read as before. -/
theorem State.Twin.store (a : Nat) (v : Int) : (s.store a v).Twin (t.store a v) where
  alike :=
    { h.alike with
      mem := fun b => by
        rw [State.store_mem, State.store_mem, Memory.read_write h.left, Memory.read_write h.right, h.alike.mem] }
  left := Memory.write_wf h.left a v
  right := Memory.write_wf h.right a v

end

/-! ### The same answers -/

/-- Two computations of a next state fail alike or answer twins. -/
inductive SameAnswer : Except Cause State → Except Cause State → Prop where
  | ok {u v : State} (h : u.Twin v) : SameAnswer (.ok u) (.ok v)
  | error (c : Cause) : SameAnswer (.error c) (.error c)

/-- Two steps stop alike or go on to twins. -/
inductive SameResult : Result → Result → Prop where
  | next {u v : State} (h : u.Twin v) : SameResult (.next u) (.next v)
  | fault (f : Fault) : SameResult (.fault f) (.fault f)

/-- A check that both computations make with the same outcome. -/
theorem SameAnswer.bind {α : Type} {x : Except Cause α} {f g : α → Except Cause State}
    (h : ∀ a, x = .ok a → SameAnswer (f a) (g a)) : SameAnswer (x >>= f) (x >>= g) := by
  cases x with
  | error c => exact .error c
  | ok a => exact h a rfl

theorem SameAnswer.finish {s t : State} {q r : Except Cause State} (h : SameAnswer q r) (hst : s.Twin t) :
    SameResult (s.finish q) (t.finish r) := by
  cases h with
  | ok h => exact .next h
  | error c => exact .next (hst.raise c)

section
variable {s t : State} (h : s.Twin t)
include h

theorem State.Twin.storeResult {x y z : Operand} {f g : Int → Int → Except Cause Int}
    (hfg : ∀ a b, f a b = g a b) : SameAnswer (s.storeResult x y z f) (t.storeResult x y z g) := by
  simp only [State.storeResult, h.alike.fallThrough, h.alike.rd, h.alike.tgt, hfg]
  refine .bind fun next _ => .bind fun a _ => .bind fun b _ => .bind fun addr haddr => .bind fun v _ => ?_
  have h0 := State.tgt_nonneg haddr
  rw [State.memWrite_of_nonneg h0, State.memWrite_of_nonneg h0]
  exact .ok ((h.store _ v).setPc next)

theorem State.Twin.jumpIf {x y : Operand} {taken : Int → Bool} :
    SameAnswer (s.jumpIf x y taken) (t.jumpIf x y taken) := by
  simp only [State.jumpIf, h.alike.fallThrough, h.alike.rd]
  refine .bind fun next _ => .bind fun a _ => .bind fun b _ => ?_
  split
  · exact .bind fun target _ => .ok (h.setPc target)
  · exact .ok (h.setPc next)

theorem State.Twin.execIn (o : Operand) : SameResult (execIn o s) (execIn o t) := by
  refine SameAnswer.finish ?_ h
  simp only [State.inReq, h.alike.fallThrough, h.alike.tgt, h.alike.inq, h.alike.cfg]
  refine .bind fun next _ => .bind fun addr haddr => ?_
  have h0 := State.tgt_nonneg haddr
  cases t.inq with
  | cons v rest =>
    simp only [State.memWrite_of_nonneg h0]
    exact .ok (((h.setInq rest).store _ v).setPc next)
  | nil =>
    cases t.cfg.ioBackend with
    | direct => exact .error _
    | channel => exact .ok h.await

/-- Every instruction does alike from twins. -/
theorem State.Twin.exec (i : Instr) : SameResult (exec i s) (exec i t) := by
  cases i with
  | add x y z => exact (h.storeResult fun a b => h.alike.chk (a + b)).finish h
  | mul x y z => exact (h.storeResult fun a b => h.alike.chk (a * b)).finish h
  | lt x y z => exact (h.storeResult fun _ _ => rfl).finish h
  | eq x y z => exact (h.storeResult fun _ _ => rfl).finish h
  | jt x y => exact h.jumpIf.finish h
  | jf x y => exact h.jumpIf.finish h
  | inp o => exact h.execIn o
  | out x =>
    refine SameAnswer.finish ?_ h
    simp only [h.alike.fallThrough, h.alike.rd]
    exact .bind fun next _ => .bind fun v _ => .ok ((h.outEmit v).setPc next)
  | arb x =>
    refine SameAnswer.finish ?_ h
    simp only [h.alike.fallThrough, h.alike.rd, h.alike.rb, h.alike.chk]
    exact .bind fun next _ => .bind fun a _ => .bind fun r _ => .ok ((h.setRb r).setPc next)
  | halt =>
    refine SameAnswer.finish ?_ h
    simp only [h.alike.fallThrough]
    exact .bind fun next _ => .ok (h.setHalted.setPc next)

theorem State.Twin.runInstruction : SameResult s.runInstruction t.runInstruction := by
  unfold State.runInstruction
  rw [h.alike.fetch]
  cases t.fetch with
  | ok i => exact h.exec i
  | error c => exact .next (h.raise c)

theorem State.Twin.step : SameResult (step s) (step t) := by
  unfold Machine.step
  rw [h.alike.status, h.alike.inq]
  cases t.status with
  | running => exact h.runInstruction
  | awaitingInput =>
    by_cases hq : t.inq = []
    · simp only [hq, if_true]
      exact .fault _
    · simp only [hq, if_false]
      exact h.resume.runInstruction
  | halted => exact .fault _
  | faulted => exact .fault _

theorem State.Twin.stepSignal : stepSignal s = stepSignal t := by
  have hstep := h.step
  unfold Machine.stepSignal
  generalize Machine.step s = q at hstep
  generalize Machine.step t = r at hstep
  cases hstep with
  | next hu => simp only [hu.alike.status, hu.alike.cause, h.alike.fetch, h.alike.completedSignal]
  | fault f => rfl

end

/-- Settles O33: alike states with canonical memory are twins, and twins step alike. -/
theorem tierOfACellIsUnobservable : Obligations.TierOfACellIsUnobservable := by
  intro s t halike hs ht
  have h : s.Twin t := ⟨halike, hs, ht⟩
  refine ⟨halike.observe, h.stepSignal, fun f hf => ?_, fun u hu => ?_⟩
  · have hstep := h.step
    rw [hf] at hstep
    generalize step t = r at hstep ⊢
    cases hstep with
    | fault => rfl
  · have hstep := h.step
    rw [hu] at hstep
    generalize step t = r at hstep ⊢
    cases hstep with
    | next huv => exact ⟨_, rfl, huv.alike, huv.left, huv.right⟩

end Sys2Proof.Machine
end

section
/-! PROOFS. The stages of a step (40_step_and_operands.md R80 to R92): what fetch can fail with, the
instruction that a step runs, when a step exists, and what the accesses to operands and memory answer. -/

namespace Sys2Proof

/-- Only as many operand cells as the opcode has operands matter (R63, R84). -/
theorem Header.assemble_congr {h : Header} {cells cells' : List Int}
    (hc : ∀ k, k < h.op.arity → rawAt cells k = rawAt cells' k) : h.assemble cells = h.assemble cells' := by
  obtain ⟨op, m1, m2, m3⟩ := h
  cases op <;> simp_all [Header.assemble, Opcode.arity]

namespace Machine

/-! ### Fetch -/

/-- Reading cells at addresses that are not negative fails on an address above `MAXADDR` only (R84). -/
theorem State.readCells_error {s : State} {n a : Nat} {c : Cause} (h : s.readCells (a : Int) n = .error c) :
    c = .arithmeticOverflow ∧ maxAddr s.cfg.wordWidth + 1 < (a : Int) + n := by
  induction n generalizing a with
  | zero => cases h
  | succ n ih =>
    have hcast : (a : Int) + 1 = ((a + 1 : Nat) : Int) := by push_cast; rfl
    simp only [State.readCells, except_bind_eq_error, State.chk_eq_error, hcast] at h
    rcases h with ⟨hw, hc⟩ | ⟨a', ha', h⟩
    · have hlt : maxAddr s.cfg.wordWidth < a := not_le.mp fun hle => hw (isWord_of_nonneg (by omega) hle)
      exact ⟨hc, by push_cast; omega⟩
    · obtain ⟨-, rfl⟩ := State.chk_eq_ok.mp ha'
      simp only [State.memRead_natCast, except_pure] at h
      rcases h with h | ⟨v, -, h | ⟨rest, -, h⟩⟩
      · cases h
      · obtain ⟨hc, hlt⟩ := ih h
        exact ⟨hc, by push_cast at hlt ⊢; omega⟩
      · cases h

/-- What a failing fetch fails with: the header of the word at `pc`, or an operand cell above `MAXADDR`. -/
theorem State.fetch_error_cases {s : State} {c : Cause} (h : s.fetch = .error c) :
    (∃ e, decodeHeader (s.mem.read s.pc) = .error e ∧ c = causeOf e) ∨
      ∃ g, decodeHeader (s.mem.read s.pc) = .ok g ∧ c = .arithmeticOverflow ∧
        maxAddr s.cfg.wordWidth < (s.pc : Int) + g.op.arity := by
  cases hd : decodeHeader (s.mem.read s.pc) with
  | error e =>
    rw [State.fetch_of_decodeHeader_error hd] at h
    exact .inl ⟨e, rfl, (Except.error.inj h).symm⟩
  | ok g =>
    have hcast : (s.pc : Int) + 1 = ((s.pc + 1 : Nat) : Int) := by push_cast; rfl
    simp only [State.fetch, State.memRead_natCast, except_bind_ok, hd, liftDecode_ok, hcast,
      except_bind_eq_error, except_pure] at h
    rcases h with h | ⟨cells, -, h⟩
    · obtain ⟨hc, hlt⟩ := State.readCells_error h
      exact .inr ⟨g, rfl, hc, by push_cast at hlt; omega⟩
    · cases h

/-- Settles O10: a header error is one of the decoder's two, and there are at most three operand cells. -/
theorem fetchRaisesNoAddressFault : Obligations.FetchRaisesNoAddressFault := by
  intro s c h
  rcases State.fetch_error_cases h with ⟨e, he, rfl⟩ | ⟨g, -, hc, hlt⟩
  · rcases decodeHeader_error_cases he with rfl | ⟨k, d, rfl⟩
    · exact .inl rfl
    · exact .inr (.inl ⟨k, d, rfl⟩)
  · have := g.op.arity_le
    exact .inr (.inr ⟨hc, by omega⟩)

/-! ### The instruction a step runs -/

/-- Settles O11: the fall-through address is every instruction's first check. -/
theorem fallThroughAboveMaxAddrFaults : Obligations.FallThroughAboveMaxAddrFaults := fun _ _ h =>
  exec_of_overflow (State.fallThrough_overflow h)

/-- A cell of those from `a` on. -/
theorem rawAt_range'_map {f : Nat → Int} {a n k : Nat} (hk : k < n) :
    rawAt ((List.range' a n).map f) k = f (a + k) := by
  simp [rawAt, hk]

/-- A running engine runs what the four cells from `pc` on decode to. Where not all its operand cells
are addresses, the fetch fails with the fault that the instruction's first check would enter. -/
theorem State.runInstruction_of_decode {s : State} {i : Instr}
    (h : decode [s.mem.read s.pc, s.mem.read (s.pc + 1), s.mem.read (s.pc + 2), s.mem.read (s.pc + 3)] = .ok i) :
    s.runInstruction = exec i s := by
  obtain ⟨g, hg, rfl⟩ := decode_cons_eq_ok.mp h
  unfold State.runInstruction
  cases hf : s.fetch with
  | ok j =>
    obtain ⟨g', hg', -, rfl⟩ := State.fetch_eq_ok.mp hf
    obtain rfl : g = g' := Except.ok.inj (hg.symm.trans hg')
    have hcells : g.assemble ((List.range' (s.pc + 1) g.op.arity).map s.mem.read) =
        g.assemble ((List.range' (s.pc + 1) 3).map s.mem.read) :=
      Header.assemble_congr fun k hk => by
        rw [rawAt_range'_map hk, rawAt_range'_map (hk.trans_le g.op.arity_le)]
    simp only [hcells]
    rfl
  | error c =>
    rcases State.fetch_error_cases hf with ⟨e, he, -⟩ | ⟨g', hg', rfl, hlt⟩
    · rw [hg] at he
      cases he
    · obtain rfl : g = g' := Except.ok.inj (hg.symm.trans hg')
      refine (exec_of_overflow (State.fallThrough_overflow ?_)).symm
      rw [Instr.length_eq, Header.assemble_opcode]
      push_cast
      omega

theorem step_of_running {s : State} (h : s.status = .running) : step s = s.runInstruction := by
  simp only [step, h]

theorem step_of_arrived {s : State} (h : s.status = .awaitingInput) (hq : s.inq ≠ []) :
    step s = s.resume.runInstruction := by
  simp only [step, h, hq, if_false]

theorem step_of_awaiting {s : State} (h : s.status = .awaitingInput) (hq : s.inq = []) :
    step s = .fault .noStepAwaitingInput := by
  simp only [step, h, hq, if_true]

theorem step_of_fetch_ok {s : State} {i : Instr} (h : s.status = .running) (hf : s.fetch = .ok i) :
    step s = exec i s := by
  simp only [step_of_running h, State.runInstruction, hf]

/-- Settles O8: resuming changes no cell, so both clauses are runs of the same decoded instruction. -/
theorem stepRunsTheDecodedInstruction : Obligations.StepRunsTheDecodedInstruction := fun s _ h =>
  ⟨fun hr => (step_of_running hr).trans (State.runInstruction_of_decode h),
    fun ha hq => (step_of_arrived ha hq).trans (State.runInstruction_of_decode (s := s.resume) h)⟩

theorem State.runInstruction_total (s : State) : ∃ u, s.runInstruction = .next u := by
  unfold State.runInstruction
  cases s.fetch with
  | ok i => exact exec_total i s
  | error c => exact ⟨_, rfl⟩

/-- Settles O9, by the status: running one instruction always gives a next state. -/
theorem stepExistsExactlyWhileRunning : Obligations.StepExistsExactlyWhileRunning := fun s =>
  ⟨fun hr => step_of_running hr ▸ s.runInstruction_total, fun hh => by simp only [step, hh],
    fun hf => by simp only [step, hf], step_of_awaiting,
    fun ha hq => step_of_arrived ha hq ▸ s.resume.runInstruction_total⟩

/-! ### Operands and memory -/

/-- Settles O12: a Relative operand adds the range check of its address to a Position one. -/
theorem readOperandResolution : Obligations.ReadOperandResolution := by
  intro s r
  have hrel : IsWord s.cfg.wordWidth (s.rb + r) → s.rd ⟨.relative, r⟩ = s.memRead (s.rb + r) := fun hw => by
    rw [State.rd_relative, State.chk_of_isWord hw, except_bind_ok]
  refine ⟨s.rd_immediate r, fun h => ?_, fun h => ?_, fun hw => ?_, fun hw h => ?_, fun hw h => ?_⟩
  · rw [State.rd_position, State.memRead_of_nonneg h]
  · rw [State.rd_position, State.memRead_of_neg h]
  · rw [State.rd_relative, State.chk_of_not_isWord hw, except_bind_error]
  · rw [hrel hw, State.memRead_of_neg h]
  · rw [hrel hw, State.memRead_of_nonneg h]

/-- Settles O13: as for a read operand, with the check of the address in place of its read. -/
theorem writeTargetResolution : Obligations.WriteTargetResolution := by
  intro s k r
  have hrel : IsWord s.cfg.wordWidth (s.rb + r) → s.tgt k ⟨.relative, r⟩ = checkAddress (s.rb + r) := fun hw => by
    rw [State.tgt_relative, State.chk_of_isWord hw, except_bind_ok]
  refine ⟨fun h => ?_, fun h => ?_, fun hw => ?_, fun hw h => ?_, fun hw h => ?_, s.tgt_immediate k r⟩
  · rw [State.tgt_position, checkAddress_of_nonneg h]
  · rw [State.tgt_position, checkAddress_of_neg h]
  · rw [State.tgt_relative, State.chk_of_not_isWord hw, except_bind_error]
  · rw [hrel hw, checkAddress_of_neg h]
  · rw [hrel hw, checkAddress_of_nonneg h]

/-- Settles O15: a write at an address is the store of one cell. -/
theorem memWriteReadsBackAndFrames : Obligations.MemWriteReadsBackAndFrames := fun s a v hwf =>
  ⟨fun hneg => State.memWrite_of_neg hneg v, fun h0 =>
    ⟨s.mem.write a.toNat v, State.memWrite_of_nonneg h0 v, Memory.read_write_same hwf _ v,
      fun _ hb => Memory.read_write_other s.mem v hb, Memory.write_prog_length _ _ _⟩⟩

end Machine
end Sys2Proof
end

section
/-! PROOFS. The ten instructions: the first failing check is the fault entered (60_exceptions.md R156), and
when all checks pass the next state is the instruction's own (rules R100 to R145). Each `exec i s` is by
definition `s.finish` of a computation, so its value follows from what that computation answers. -/

namespace Sys2Proof.Machine

/-- The two checks with which `IN`, `OUT` and `ARB` begin. -/
theorem bind_bind_eq_error_of_firstError {α β γ : Type} {x : Except Cause α} {y : Except Cause β}
    {f : α → β → Except Cause γ} {c : Cause} (h : firstError [errorOf x, errorOf y] = some c) :
    (x >>= fun a => y >>= f a) = .error c := by
  refine bind_eq_error_of_firstError h fun _ _ h => ?_
  exact bind_eq_error_of_firstError h fun _ _ h => by cases h

/-! ### `ADD`, `MUL`, `LT` and `EQ` -/

/-- The operation of format F3 fails only after all its checks pass (R156). -/
theorem State.storeResult_of_error {s : State} {x y t : Operand} {f : Int → Int → Except Cause Int}
    {a b addr : Int} {c : Cause} (hp : (s.pc : Int) + 4 ≤ maxAddr s.cfg.wordWidth) (ha : s.rd x = .ok a)
    (hb : s.rd y = .ok b) (ht : s.tgt 3 t = .ok addr) (hf : f a b = .error c) :
    s.storeResult x y t f = .error c := by
  simp only [State.storeResult, State.fallThrough_ok (L := 4) hp, ha, hb, ht, hf, except_bind_ok,
    except_bind_error]

theorem truthWord_decide (p : Prop) [Decidable p] : truthWord (decide p) = if p then 1 else 0 := by
  simp only [truthWord, decide_eq_true_eq]

/-- Settles O16: the operation is the range check of the sum. -/
theorem addStoresSum : Obligations.AddStoresSum := fun s _ _ _ =>
  ⟨fun _ h => congrArg s.finish (State.storeResult_of_firstError h), fun _ _ _ hp ha hb ht =>
    ⟨fun hw => congrArg s.finish (State.storeResult_of_ok hp ha hb ht (State.chk_of_isWord hw)),
      fun hw => congrArg s.finish (State.storeResult_of_error hp ha hb ht (State.chk_of_not_isWord hw))⟩⟩

/-- Settles O17: the operation is the range check of the product. -/
theorem mulStoresProduct : Obligations.MulStoresProduct := fun s _ _ _ =>
  ⟨fun _ h => congrArg s.finish (State.storeResult_of_firstError h), fun _ _ _ hp ha hb ht =>
    ⟨fun hw => congrArg s.finish (State.storeResult_of_ok hp ha hb ht (State.chk_of_isWord hw)),
      fun hw => congrArg s.finish (State.storeResult_of_error hp ha hb ht (State.chk_of_not_isWord hw))⟩⟩

/-- Settles O18: the operation cannot fail, and its word is that of the comparison. -/
theorem ltStoresTruthOfLess : Obligations.LtStoresTruthOfLess := fun s _ _ _ =>
  ⟨fun _ h => congrArg s.finish (State.storeResult_of_firstError h), fun a b _ hp ha hb ht =>
    congrArg s.finish (State.storeResult_of_ok hp ha hb ht (congrArg Except.ok (truthWord_decide (a < b))))⟩

/-- Settles O19: the operation cannot fail, and its word is that of the equality. -/
theorem eqStoresTruthOfEqual : Obligations.EqStoresTruthOfEqual := fun s _ _ _ =>
  ⟨fun _ h => congrArg s.finish (State.storeResult_of_firstError h), fun a b _ hp ha hb ht =>
    congrArg s.finish (State.storeResult_of_ok hp ha hb ht (congrArg Except.ok (truthWord_decide (a = b))))⟩

/-! ### `JT` and `JF` -/

section
variable {s : State} {x y : Operand} {taken : Int → Bool} {a b : Int}
  (hp : (s.pc : Int) + 3 ≤ maxAddr s.cfg.wordWidth) (ha : s.rd x = .ok a) (hb : s.rd y = .ok b)
include hp ha hb

/-- Once both operands are resolved, the test alone decides (R120, R121, R123). -/
theorem State.jumpIf_of_ok : s.jumpIf x y taken =
    if taken a then checkAddress b >>= fun target => .ok (s.setPc target) else .ok { s with pc := s.pc + 3 } := by
  simp only [State.jumpIf, State.fallThrough_ok (L := 3) hp, ha, hb, except_bind_ok, except_pure]
  rfl

theorem State.jumpIf_of_taken (ht : taken a = true) (h0 : 0 ≤ b) :
    s.jumpIf x y taken = .ok { s with pc := b.toNat } := by
  rw [State.jumpIf_of_ok hp ha hb, if_pos ht, checkAddress_of_nonneg h0]
  rfl

theorem State.jumpIf_of_taken_neg (ht : taken a = true) (hneg : b < 0) :
    s.jumpIf x y taken = .error (.negativeAddress b) := by
  rw [State.jumpIf_of_ok hp ha hb, if_pos ht, checkAddress_of_neg hneg]
  rfl

theorem State.jumpIf_of_not_taken (ht : taken a = false) :
    s.jumpIf x y taken = .ok { s with pc := s.pc + 3 } := by
  rw [State.jumpIf_of_ok hp ha hb, ht]
  rfl

end

theorem isTrueWord_eq_true {v : Int} : isTrueWord v = true ↔ v ≠ 0 := decide_eq_true_iff

theorem isTrueWord_eq_false {v : Int} : isTrueWord v = false ↔ v = 0 := by
  rw [← Bool.not_eq_true, isTrueWord_eq_true, not_not]

theorem not_isTrueWord_eq_true {v : Int} : (!isTrueWord v) = true ↔ v = 0 := by
  rw [Bool.not_eq_true', isTrueWord_eq_false]

theorem not_isTrueWord_eq_false {v : Int} : (!isTrueWord v) = false ↔ v ≠ 0 := by
  rw [Bool.not_eq_false', isTrueWord_eq_true]

/-- Settles O23: the jump is taken when operand 1 is a true word. -/
theorem jtJumpsWhenNonzero : Obligations.JtJumpsWhenNonzero := fun s _ _ =>
  ⟨fun _ h => congrArg s.finish (State.jumpIf_of_firstError h), fun _ _ hp ha hb =>
    ⟨fun hne h0 => congrArg s.finish (State.jumpIf_of_taken hp ha hb (isTrueWord_eq_true.mpr hne) h0),
      fun hne hneg => congrArg s.finish (State.jumpIf_of_taken_neg hp ha hb (isTrueWord_eq_true.mpr hne) hneg),
      fun h0 => congrArg s.finish (State.jumpIf_of_not_taken hp ha hb (isTrueWord_eq_false.mpr h0))⟩⟩

/-- Settles O24: the jump is taken when operand 1 is no true word. -/
theorem jfJumpsWhenZero : Obligations.JfJumpsWhenZero := fun s _ _ =>
  ⟨fun _ h => congrArg s.finish (State.jumpIf_of_firstError h), fun _ _ hp ha hb =>
    ⟨fun hz h0 => congrArg s.finish (State.jumpIf_of_taken hp ha hb (not_isTrueWord_eq_true.mpr hz) h0),
      fun hz hneg => congrArg s.finish (State.jumpIf_of_taken_neg hp ha hb (not_isTrueWord_eq_true.mpr hz) hneg),
      fun hne => congrArg s.finish (State.jumpIf_of_not_taken hp ha hb (not_isTrueWord_eq_false.mpr hne))⟩⟩

/-! ### `IN` -/

/-- The target is checked before any input is requested (R110). -/
theorem exec_inp_of_firstError {s : State} {t : Operand} {c : Cause}
    (h : firstError [errorOf (s.fallThrough 2), errorOf (s.tgt 1 t)] = some c) :
    exec (.inp t) s = .next (s.raise c) :=
  congrArg s.finish (bind_bind_eq_error_of_firstError h)

section
variable {s : State} {t : Operand} {addr : Int} (hp : (s.pc : Int) + 2 ≤ maxAddr s.cfg.wordWidth)
  (ht : s.tgt 1 t = .ok addr)
include hp ht

theorem exec_inp_of_input {v : Int} {rest : List Int} (hq : s.inq = v :: rest) :
    exec (.inp t) s = .next { s with mem := s.mem.write addr.toNat v, inq := rest, pc := s.pc + 2 } := by
  have hinq : inqAfter (.inp t) s = rest := by
    simp [inqAfter, Instr.opcode, hq]
  rw [exec_of_storesWord (i := .inp t) ⟨ht, rest, hq⟩ hp, hinq]
  rfl

theorem exec_inp_of_exhausted (hq : s.inq = []) (hb : s.cfg.ioBackend = .direct) :
    exec (.inp t) s = .next (s.raise .inputExhausted) := by
  simp only [exec, execIn, State.fallThrough_ok (L := 2) hp, ht, State.inReq, hq, hb, except_bind_ok,
    State.finish_error]

theorem exec_inp_of_pending (hq : s.inq = []) (hb : s.cfg.ioBackend = .channel) :
    exec (.inp t) s = .next s.await := by
  simp only [exec, execIn, State.fallThrough_ok (L := 2) hp, ht, State.inReq, hq, hb, except_bind_ok,
    except_pure, State.finish_ok]

end

/-- Settles O20, by what the input queue answers once the target is resolved. -/
theorem inConsumesAndStoresNextInput : Obligations.InConsumesAndStoresNextInput := fun _ _ =>
  ⟨fun _ => exec_inp_of_firstError, fun _ hp ht =>
    ⟨fun _ _ => exec_inp_of_input hp ht, exec_inp_of_exhausted hp ht⟩⟩

/-- Settles O21: the suspended `IN` is run again from the resumed state, whose only input is the one
that has arrived. -/
theorem suspendedInCompletesOnArrival : Obligations.SuspendedInCompletesOnArrival := by
  intro s t addr v hb hq hr hf hp ht
  refine ⟨?_, step_of_awaiting rfl hq, ?_⟩
  · rw [step_of_fetch_ok hr hf, exec_inp_of_pending hp ht hq hb]
    rfl
  · have hresume : (({ s with status := .awaitingInput } : State).arrive v).resume = { s with inq := [v] } := by
      simp only [State.arrive, State.resume, hq, ← hr, List.nil_append]
    have hf' : ({ s with inq := [v] } : State).fetch = .ok (.inp t) :=
      (State.fetch_congr (s := { s with inq := [v] }) (t := s) rfl rfl rfl).trans hf
    calc step (({ s with status := .awaitingInput } : State).arrive v)
        = ({ s with inq := [v] } : State).runInstruction := by rw [step_of_arrived rfl (by simp), hresume]
      _ = exec (.inp t) { s with inq := [v] } := by rw [State.runInstruction, hf']
      _ = .next { s with mem := s.mem.write addr.toNat v, inq := [], pc := s.pc + 2 } :=
          exec_inp_of_input (s := { s with inq := [v] }) hp ht rfl
      _ = .next { s with mem := s.mem.write addr.toNat v, pc := s.pc + 2 } := by rw [← hq]

/-! ### `OUT`, `ARB` and `HALT` -/

/-- Settles O22: past its two checks `OUT` only emits. -/
theorem outAppendsOperandValue : Obligations.OutAppendsOperandValue := by
  intro s x
  refine ⟨fun c h => congrArg s.finish (bind_bind_eq_error_of_firstError h), fun v hp hv => ?_⟩
  simp only [exec, execOut, State.fallThrough_ok (L := 2) hp, hv, except_bind_ok, except_pure, State.finish_ok]
  rfl

/-- Settles O25: past its two checks `ARB` makes the range check of the new base. -/
theorem arbAddsToRelativeBase : Obligations.ArbAddsToRelativeBase := by
  intro s x
  refine ⟨fun c h => congrArg s.finish (bind_bind_eq_error_of_firstError h), fun a hp ha =>
    ⟨fun hw => ?_, fun hw => ?_⟩⟩
  · simp only [exec, execArb, State.fallThrough_ok (L := 2) hp, ha, State.chk_of_isWord hw, except_bind_ok,
      except_pure, State.finish_ok]
    rfl
  · simp only [exec, execArb, State.fallThrough_ok (L := 2) hp, ha, State.chk_of_not_isWord hw, except_bind_ok,
      except_bind_error, State.finish_error]

/-- Settles O26: `HALT` has no check but that of the fall-through address. -/
theorem haltSetsHaltedOnly : Obligations.HaltSetsHaltedOnly := by
  intro s hp
  refine ⟨?_, rfl⟩
  simp only [exec, execHalt, State.fallThrough_ok (L := 1) hp, except_bind_ok, except_pure, State.finish_ok]
  rfl

end Sys2Proof.Machine
end

section
/-! PROOFS. What a completed instruction and a step change and what they leave alone (10_state.md R37,
60_exceptions.md R157). The ten instructions have eight kinds of effect between them; every frame below is
a case analysis over those kinds. -/

namespace Sys2Proof.Machine

/-! ### The kinds of effect -/

/-- `i` is a jump that is taken, to `b` (R120, R121). -/
def Takes (i : Instr) (s : State) (b : Int) : Prop :=
  ∃ x y a, ((i = .jt x y ∧ a ≠ 0) ∨ (i = .jf x y ∧ a = 0)) ∧ s.rd x = .ok a ∧ s.rd y = .ok b

/-- `i` is a jump that is not taken. -/
def Passes (i : Instr) (s : State) : Prop :=
  ∃ x y a, ((i = .jt x y ∧ a = 0) ∨ (i = .jf x y ∧ a ≠ 0)) ∧ s.rd x = .ok a

/-- What a completed instruction leaves of `s`, by kind. -/
inductive Effect (i : Instr) (s : State) : State → Prop where
  | store {k : Nat} {t : Operand} {addr v next : Int} (hi : i.opcode ≠ .inp) (hw : i.writeOperand = some t)
      (hk : i.opcode.writePos = some k) (ht : s.tgt k t = .ok addr) (hn : s.fallThrough i.length = .ok next) :
      Effect i s ((s.store addr.toNat v).setPc next)
  | consume {t : Operand} {addr v next : Int} {rest : List Int} (hi : i = .inp t) (ht : s.tgt 1 t = .ok addr)
      (hq : s.inq = v :: rest) (hn : s.fallThrough i.length = .ok next) :
      Effect i s (((s.setInq rest).store addr.toNat v).setPc next)
  | await {t : Operand} (hi : i = .inp t) (hq : s.inq = []) (hb : s.cfg.ioBackend = .channel) :
      Effect i s s.await
  | emit {x : Operand} {v next : Int} (hi : i = .out x) (hv : s.rd x = .ok v)
      (hn : s.fallThrough i.length = .ok next) : Effect i s ((s.outEmit v).setPc next)
  | jump {b : Int} (ht : Takes i s b) : Effect i s (s.setPc b)
  | pass {next : Int} (hp : Passes i s) (hn : s.fallThrough i.length = .ok next) : Effect i s (s.setPc next)
  | rebase {x : Operand} {a next : Int} (hi : i = .arb x) (ha : s.rd x = .ok a)
      (hn : s.fallThrough i.length = .ok next) : Effect i s ((s.setRb (s.rb + a)).setPc next)
  | halt {next : Int} (hi : i = .halt) (hn : s.fallThrough i.length = .ok next) :
      Effect i s (s.setHalted.setPc next)

/-- The four instructions of format F3, whose third operand is the target. -/
theorem Stored.effect {i : Instr} {s u : State} {x y t : Operand} {P : Int → Int → Int → Prop}
    (h : Stored s u x y t P) (hi : i.opcode ≠ .inp) (hw : i.writeOperand = some t)
    (hk : i.opcode.writePos = some 3) (hl : i.length = 4) : Effect i s u := by
  obtain ⟨next, a, b, addr, v, hn, -, -, ht, -, rfl⟩ := h
  exact .store hi hw hk ht (hl ▸ hn)

theorem Completed.effect {i : Instr} {s u : State} (h : Completed i s u) : Effect i s u := by
  cases i with
  | add x y t => exact Stored.effect h nofun rfl rfl rfl
  | mul x y t => exact Stored.effect h nofun rfl rfl rfl
  | lt x y t => exact Stored.effect h nofun rfl rfl rfl
  | eq x y t => exact Stored.effect h nofun rfl rfl rfl
  | inp t =>
    obtain ⟨next, addr, hn, ht, ⟨v, rest, hq, rfl⟩ | ⟨hq, hb, rfl⟩⟩ := h
    · exact .consume rfl ht hq hn
    · exact .await rfl hq hb
  | out x =>
    obtain ⟨next, v, hn, hv, rfl⟩ := h
    exact .emit rfl hv hn
  | jt x y =>
    obtain ⟨next, a, b, hn, ha, hb, ⟨ht, -, rfl⟩ | ⟨ht, rfl⟩⟩ := h
    · exact .jump ⟨x, y, a, .inl ⟨rfl, isTrueWord_eq_true.mp ht⟩, ha, hb⟩
    · exact .pass ⟨x, y, a, .inl ⟨rfl, isTrueWord_eq_false.mp ht⟩, ha⟩ hn
  | jf x y =>
    obtain ⟨next, a, b, hn, ha, hb, ⟨ht, -, rfl⟩ | ⟨ht, rfl⟩⟩ := h
    · exact .jump ⟨x, y, a, .inr ⟨rfl, not_isTrueWord_eq_true.mp ht⟩, ha, hb⟩
    · exact .pass ⟨x, y, a, .inr ⟨rfl, not_isTrueWord_eq_false.mp ht⟩, ha⟩ hn
  | arb x =>
    obtain ⟨next, a, hn, ha, -, rfl⟩ := h
    exact .rebase rfl ha hn
  | halt =>
    obtain ⟨next, hn, rfl⟩ := h
    exact .halt rfl hn

theorem exec_effect {i : Instr} {s u : State} (h : exec i s = .next u) : (∃ c, u = s.raise c) ∨ Effect i s u :=
  (exec_cases h).imp_right Completed.effect

/-! ### What an effect leaves alone -/

theorem Takes.opcode {i : Instr} {s : State} {b : Int} (h : Takes i s b) : i.opcode = .jt ∨ i.opcode = .jf := by
  obtain ⟨x, y, a, ⟨rfl, -⟩ | ⟨rfl, -⟩, -⟩ := h
  · exact .inl rfl
  · exact .inr rfl

theorem Passes.opcode {i : Instr} {s : State} (h : Passes i s) : i.opcode = .jt ∨ i.opcode = .jf := by
  obtain ⟨x, y, a, ⟨rfl, -⟩ | ⟨rfl, -⟩, -⟩ := h
  · exact .inl rfl
  · exact .inr rfl

section
variable {i : Instr} {s u : State} (h : Effect i s u)
include h

theorem Effect.cfg : u.cfg = s.cfg := by cases h <;> rfl

theorem Effect.cause : u.cause = s.cause := by cases h <;> rfl

/-- Only `ARB` touches `rb` (R22). -/
theorem Effect.rb : u.rb = s.rb ∨ ∃ x a, i = .arb x ∧ s.rd x = .ok a ∧ u.rb = s.rb + a := by
  cases h with
  | rebase hi ha _ => exact .inr ⟨_, _, hi, ha, rfl⟩
  | store | consume | await | emit | jump | pass | halt => exact .inl rfl

/-- Only `IN` touches `inq` (R31). -/
theorem Effect.inq : u.inq = s.inq ∨ ∃ v t, s.inq = v :: u.inq ∧ i = .inp t := by
  cases h with
  | consume hi _ hq _ => exact .inr ⟨_, _, hq, hi⟩
  | store | await | emit | jump | pass | rebase | halt => exact .inl rfl

/-- Only `OUT` touches `outq` (R31). -/
theorem Effect.outq : u.outq = s.outq ∨ ∃ v x, u.outq = s.outq ++ [v] ∧ i = .out x ∧ s.rd x = .ok v := by
  cases h with
  | emit hi hv _ => exact .inr ⟨_, _, rfl, hi, hv⟩
  | store | consume | await | jump | pass | rebase | halt => exact .inl rfl

/-- Only `HALT` and a suspended `IN` touch `status` (R23, R114). -/
theorem Effect.status : (i.opcode ≠ .halt ∧ u.status = s.status) ∨ (i = .halt ∧ u.status = .halted) ∨
    ∃ t, i = .inp t ∧ s.cfg.ioBackend = .channel ∧ s.inq = [] ∧ u = s.await := by
  cases h with
  | halt hi _ => exact .inr (.inl ⟨hi, rfl⟩)
  | await hi hq hb => exact .inr (.inr ⟨_, hi, hb, hq, rfl⟩)
  | store _ _ hk _ _ => exact .inl ⟨fun hh => (by rw [hh] at hk; cases hk), rfl⟩
  | consume hi _ _ _ => exact .inl ⟨hi ▸ nofun, rfl⟩
  | emit hi _ _ => exact .inl ⟨hi ▸ nofun, rfl⟩
  | jump ht => exact .inl ⟨ht.opcode.elim (fun hj => hj ▸ nofun) fun hj => hj ▸ nofun, rfl⟩
  | pass hp _ => exact .inl ⟨hp.opcode.elim (fun hj => hj ▸ nofun) fun hj => hj ▸ nofun, rfl⟩
  | rebase hi _ _ => exact .inl ⟨hi ▸ nofun, rfl⟩

/-- Memory changes by one write at most, at the target of the write operand (R37). -/
theorem Effect.mem : u.mem = s.mem ∨ ∃ k t addr v, i.writeOperand = some t ∧ i.opcode.writePos = some k ∧
    s.tgt k t = .ok addr ∧ u.mem = s.mem.write addr.toNat v := by
  cases h with
  | store _ hw hk ht _ => exact .inr ⟨_, _, _, _, hw, hk, ht, rfl⟩
  | consume hi ht _ _ => exact .inr ⟨_, _, _, _, hi ▸ rfl, hi ▸ rfl, ht, rfl⟩
  | await | emit | jump | pass | rebase | halt => exact .inl rfl

theorem Effect.prog_length : u.mem.prog.length = s.mem.prog.length := by
  rcases h.mem with hm | ⟨k, t, addr, v, -, -, -, hm⟩
  · rw [hm]
  · rw [hm, Memory.write_prog_length]

/-- Where the write operand resolves, no other cell changes; where it does not, none does. -/
theorem Effect.read {k : Nat} {t : Operand} (hw : i.writeOperand = some t) (hk : i.opcode.writePos = some k) :
    (∀ addr, s.tgt k t = .ok addr → ∀ b, b ≠ addr.toNat → u.mem.read b = s.mem.read b) ∧
    ((∀ addr, s.tgt k t ≠ .ok addr) → ∀ b, u.mem.read b = s.mem.read b) := by
  rcases h.mem with hm | ⟨k', t', addr', v, hw', hk', ht', hm⟩
  · exact ⟨fun _ _ b _ => by rw [hm], fun _ b => by rw [hm]⟩
  · obtain rfl : t = t' := Option.some.inj (hw.symm.trans hw')
    obtain rfl : k = k' := Option.some.inj (hk.symm.trans hk')
    refine ⟨fun addr ht b hb => ?_, fun hno => absurd ht' (hno addr')⟩
    obtain rfl : addr = addr' := Except.ok.inj (ht.symm.trans ht')
    rw [hm, Memory.read_write_other s.mem v hb]

/-- Without a jump, `pc` advances by the length (R91). -/
theorem Effect.pc (hs : u.status ≠ .awaitingInput) (hj : ∀ b, ¬ Takes i s b) : u.pc = s.pc + i.length := by
  have hpc : ∀ {next}, s.fallThrough i.length = .ok next → next.toNat = s.pc + i.length := fun hn => by
    obtain ⟨-, rfl⟩ := State.fallThrough_eq_ok.mp hn
    omega
  cases h with
  | await => exact absurd rfl hs
  | jump ht => exact absurd ht (hj _)
  | store _ _ _ _ hn => exact hpc hn
  | consume _ _ _ hn => exact hpc hn
  | emit _ _ hn => exact hpc hn
  | pass _ hn => exact hpc hn
  | rebase _ _ hn => exact hpc hn
  | halt _ hn => exact hpc hn

end

/-- Settles O27: a fault leaves everything but `status` and `cause`, and of the kinds of effect only those
of `IN` and of a store belong to an instruction with a write operand. -/
theorem frameOfStoringInstructions : Obligations.FrameOfStoringInstructions := by
  intro i s u k t hw hk hu
  rcases exec_effect hu with ⟨c, rfl⟩ | he
  · exact ⟨rfl, rfl, rfl, rfl, fun _ => rfl, .inl rfl, .inr (.inr ⟨c, rfl⟩), fun _ _ _ _ => rfl, fun _ _ => rfl⟩
  have hrb : u.rb = s.rb := he.rb.resolve_right fun ⟨_, _, hi, _⟩ => by simp [hi, Instr.writeOperand] at hw
  have houtq : u.outq = s.outq := he.outq.resolve_right fun ⟨_, _, _, hi, _⟩ => by
    simp [hi, Instr.writeOperand] at hw
  have hinq : i.opcode ≠ .inp → u.inq = s.inq := fun hne => he.inq.resolve_right fun ⟨_, _, _, hi⟩ =>
    hne (hi ▸ rfl)
  have hstatus : (u.status = s.status ∧ u.cause = s.cause) ∨
      (i.opcode = .inp ∧ s.cfg.ioBackend = .channel ∧ s.inq = [] ∧ u = s.await) ∨ ∃ c, u = s.raise c := by
    rcases he.status with ⟨-, hst⟩ | ⟨rfl, -⟩ | ⟨t', rfl, hb, hq, hu⟩
    · exact .inl ⟨hst, he.cause⟩
    · cases hw
    · exact .inr (.inl ⟨rfl, hb, hq, hu⟩)
  obtain ⟨hread, hsame⟩ := he.read hw hk
  exact ⟨he.cfg, hrb, houtq, he.prog_length, hinq, he.inq.imp_right fun ⟨v, _, hq, _⟩ => ⟨v, hq⟩, hstatus,
    hread, hsame⟩

/-- Settles O28: without a write operand memory is not written, and an `IN` has one. -/
theorem frameOfNonStoringInstructions : Obligations.FrameOfNonStoringInstructions := by
  intro i s u hw hu
  rcases exec_effect hu with ⟨c, rfl⟩ | he
  · exact ⟨rfl, rfl, rfl, fun _ => rfl, fun _ => rfl, .inr (.inr ⟨c, rfl⟩)⟩
  have hmem : u.mem = s.mem := he.mem.resolve_right fun ⟨_, _, _, _, hw', _⟩ => by simp [hw] at hw'
  have hinq : u.inq = s.inq := he.inq.resolve_right fun ⟨_, _, _, hi⟩ => by simp [hi, Instr.writeOperand] at hw
  refine ⟨he.cfg, hmem, hinq,
    fun hne => he.outq.resolve_right fun ⟨_, _, _, hi, _⟩ => hne (hi ▸ rfl),
    fun hne => he.rb.resolve_right fun ⟨_, _, hi, _⟩ => hne (hi ▸ rfl), ?_⟩
  rcases he.status with ⟨hop, hst⟩ | ⟨rfl, hst⟩ | ⟨t, rfl, -⟩
  · exact .inl ⟨hop, hst, he.cause⟩
  · exact .inr (.inl ⟨rfl, hst, he.cause⟩)
  · cases hw

end Sys2Proof.Machine
end

section
/-! PROOFS. The step of the whole machine: the frames of the instructions, carried to the state a step
begins in, and the invariants of every reachable state (10_state.md R36). -/

namespace Sys2Proof.Machine

/-! ### The state in which a step's instruction begins -/

@[simp] theorem State.resume_rd (s : State) (o : Operand) : s.resume.rd o = s.rd o := rfl
@[simp] theorem State.resume_tgt (s : State) (k : Nat) (o : Operand) : s.resume.tgt k o = s.tgt k o := rfl

theorem State.resume_of_running {s : State} (h : s.status = .running) : s.resume = s := by
  rw [State.resume, ← h]

/-- A step enters a fault or has the effect of the fetched instruction on `s.resume`, which is `s` itself
for a running engine and differs from a suspended one in `status` alone. -/
theorem step_resume_effect {s u : State} (h : step s = .next u) :
    (∃ c, u = s.raise c) ∨
      ∃ i, s.fetch = .ok i ∧ Effect i s.resume u ∧ (s.status = .running ∨ s.inq ≠ []) := by
  rcases step_effect h with hc | ⟨i, hf, ⟨hs, hc⟩ | ⟨hq, hc⟩⟩
  · exact .inl hc
  · refine .inr ⟨i, hf, ?_, .inl hs⟩
    rw [State.resume_of_running hs]
    exact hc.effect
  · exact .inr ⟨i, hf, hc.effect, .inr hq⟩

/-! ### What a step changes -/

/-- A completed instruction of a running engine does not fault. -/
theorem Effect.status_ne_faulted {i : Instr} {s u : State} (h : Effect i s u) (hs : s.status = .running) :
    u.status ≠ .faulted := by
  rcases h.status with ⟨-, hst⟩ | ⟨-, hst⟩ | ⟨_, -, -, -, rfl⟩
  · rw [hst, hs]; decide
  · rw [hst]; decide
  · rw [State.await_status]; decide

/-- Settles O34: a completed instruction does not end faulted, so the step entered a fault. -/
theorem faultWritesOnlyStatusAndCause : Obligations.FaultWritesOnlyStatusAndCause := by
  intro s u hstep hu
  rcases step_resume_effect hstep with ⟨c, rfl⟩ | ⟨i, -, he, -⟩
  · exact ⟨c, rfl⟩
  · exact absurd hu (he.status_ne_faulted s.resume_status)

/-- Settles O35: fault entry keeps `rb`, and of the effects only that of `ARB` changes it. -/
theorem onlyArbChangesRelativeBase : Obligations.OnlyArbChangesRelativeBase := by
  intro s u hstep hne
  rcases step_resume_effect hstep with ⟨c, rfl⟩ | ⟨i, hf, he, -⟩
  · exact absurd rfl hne
  · obtain ⟨x, a, rfl, ha, hrb⟩ := he.rb.resolve_left hne
    exact ⟨x, a, hf, ha, hrb⟩

/-- Settles O36: an engine that is resumed has a value, so it is not suspended again. -/
theorem onlyHaltHaltsAndOnlyInSuspends : Obligations.OnlyHaltHaltsAndOnlyInSuspends := by
  intro s u hstep
  rcases step_resume_effect hstep with ⟨c, rfl⟩ | ⟨i, hf, he, -⟩
  · exact ⟨nofun, nofun⟩
  · rcases he.status with ⟨-, hst⟩ | ⟨rfl, hst⟩ | ⟨t, rfl, hb, hq, rfl⟩
    · rw [hst]
      exact ⟨nofun, nofun⟩
    · rw [hst]
      exact ⟨fun _ => hf, nofun⟩
    · exact ⟨nofun, fun _ => ⟨hb, hq, t, hf⟩⟩

/-- Settles O37: fault entry keeps both queues, and the effects move them only in `IN` and in `OUT`. -/
theorem queuesMoveOnlyByInAndOut : Obligations.QueuesMoveOnlyByInAndOut := by
  intro s u hstep
  rcases step_resume_effect hstep with ⟨c, rfl⟩ | ⟨i, hf, he, -⟩
  · exact ⟨.inl rfl, .inl rfl⟩
  · refine ⟨he.inq.imp_right ?_, he.outq.imp_right ?_⟩
    · rintro ⟨v, t, hq, rfl⟩
      exact ⟨v, t, hq, hf⟩
    · rintro ⟨v, x, hq, rfl, hv⟩
      exact ⟨v, x, hq, hf, hv⟩

/-- Settles O38: the one write an effect makes to memory is at the target, and a write never resizes. -/
theorem stepStoresAtMostItsTargetCell : Obligations.StepStoresAtMostItsTargetCell := by
  intro s u hstep
  rcases step_resume_effect hstep with ⟨c, rfl⟩ | ⟨i, hf, he, -⟩
  · exact ⟨rfl, .inl fun _ => rfl⟩
  · refine ⟨he.prog_length, ?_⟩
    rcases he.mem with hm | ⟨k, t, addr, v, hw, hk, ht, hm⟩
    · exact .inl fun b => by rw [hm, State.resume_mem]
    · exact .inr ⟨i, k, t, addr, hf, hw, hk, ht, (he.read hw hk).1 addr ht⟩

/-- Settles O5: lengths are read off the ten instructions; the hypotheses of the second clause leave neither
a fault, nor a suspended `IN`, nor a jump that is taken. -/
theorem lengthIsOnePlusOperandsAndAdvancesPc : Obligations.LengthIsOnePlusOperandsAndAdvancesPc := by
  refine ⟨fun i => ?_, fun i s u hs hf hstep hnf hna hjt hjf => ?_⟩
  · cases i <;> exact ⟨rfl, rfl, rfl⟩
  rw [step_of_fetch_ok hs hf] at hstep
  rcases exec_effect hstep with ⟨c, rfl⟩ | he
  · exact absurd rfl hnf
  · refine he.pc hna ?_
    rintro b ⟨x, y, a, ⟨hi, ha0⟩ | ⟨hi, ha0⟩, ha, -⟩
    · exact ha0 (hjt x y a hi ha)
    · exact hjf x y a hi ha ha0

/-! ### Runs -/

theorem step_cfg {s u : State} (h : step s = .next u) : u.cfg = s.cfg := by
  rcases step_resume_effect h with ⟨c, rfl⟩ | ⟨i, -, he, -⟩
  · rfl
  · exact he.cfg

theorem step_inq_suffix {s u : State} (h : step s = .next u) : u.inq <:+ s.inq := by
  rcases (queuesMoveOnlyByInAndOut s u h).1 with hq | ⟨v, t, hq, -⟩
  · exact hq ▸ List.suffix_refl _
  · exact hq ▸ List.suffix_cons v u.inq

/-- What holds of a state and is kept by every step holds of all states reachable from it. -/
theorem Reaches.induct {p : State → Prop} {s t : State} (h : Reaches s t) (h0 : p s)
    (hstep : ∀ t u, p t → step t = .next u → p u) : p t := by
  induction h with
  | refl => exact h0
  | tail _ hu ih => exact hstep _ _ ih hu

/-- In canonical memory every overflow address is at least `N`; in range, at most `MAXADDR` (R36 e). -/
theorem State.Inv.ovf_bounds {s : State} (h : s.Inv) {e : Nat × Int} (he : e ∈ s.mem.ovf) :
    s.mem.prog.length ≤ e.1 ∧ (e.1 : Int) ≤ maxAddr s.cfg.wordWidth :=
  ⟨(Memory.lookup_of_mem h.memWf he).2, (h.memRange.2 e he).2⟩

theorem step_of_terminal {s : State} (h : s.Terminal) (u : State) : step s ≠ .next u := by
  rcases h with h | h <;> simp [step, h]

/-- What every step of a run from the reset with `cfg`, `P` and `I` keeps (R36). -/
structure State.RunInv (cfg : Config) (P I : List Int) (s : State) : Prop where
  inv         : s.Inv
  cfg_eq      : s.cfg = cfg
  prog_length : s.mem.prog.length = P.length
  inq_suffix  : s.inq <:+ I

theorem State.load_runInv {cfg : Config} {P I : List Int} (hc : cfg.Valid) (hP : AllWords cfg.wordWidth P)
    (hI : AllWords cfg.wordWidth I) : (State.load cfg P I).RunInv cfg P I :=
  ⟨State.load_inv hc hP hI, rfl, rfl, List.suffix_refl I⟩

theorem State.RunInv.step {cfg : Config} {P I : List Int} {s u : State} (h : s.RunInv cfg P I)
    (hu : step s = .next u) : u.RunInv cfg P I where
  inv := stepKeepsTheInvariant s u h.inv hu
  cfg_eq := (step_cfg hu).trans h.cfg_eq
  prog_length := (stepStoresAtMostItsTargetCell s u hu).1.trans h.prog_length
  inq_suffix := (step_inq_suffix hu).trans h.inq_suffix

/-- Settles O32: the invariant, the configuration, the dense length and the inputs left are kept along the
run; the overflow keys follow from the invariant, and the end of the run from the status. -/
theorem everyReachableStateMeetsTheInvariants : Obligations.EveryReachableStateMeetsTheInvariants := by
  intro cfg P I s hc hP hI hreach
  have h : s.RunInv cfg P I := hreach.induct (State.load_runInv hc hP hI) fun _ _ => State.RunInv.step
  refine ⟨h.inv, h.cfg_eq, h.prog_length, fun e he => ?_, h.inq_suffix, step_of_terminal⟩
  rw [← h.prog_length, ← h.cfg_eq]
  exact h.inv.ovf_bounds he

end Sys2Proof.Machine
end

section
/-! PROOFS. A store into the instruction stream (20_memory.md R56) and the step signals (10_state.md R34). -/

namespace Sys2Proof.Machine

/-- Settles O39: the store gives the cells that the next fetch reads, and these decode to `j`. -/
theorem storedWordIsTheNextInstruction : Obligations.StoredWordIsTheNextInstruction := by
  intro s i j addr v next hwf hs hf hst hnext hle hdec
  subst hnext
  have hread : ∀ a, (s.mem.write addr.toNat v).read a = s.cellsStoring addr v a :=
    State.read_write_eq_cellsStoring hwf hst.nonneg v
  have hexec := exec_of_storesWord hst (by push_cast at hle; exact hle)
  refine ⟨_, (step_of_fetch_ok hs hf).trans hexec, rfl, hs, hread, ?_⟩
  refine (step_of_running (by exact hs)).trans (State.runInstruction_of_decode ?_)
  simp only [hread]
  exact hdec

/-! ### The signal of each kind of effect -/

theorem completedSignal_out {s : State} {x : Operand} {v : Int} (h : s.rd x = .ok v) :
    completedSignal (.out x) s = .producedOutput v := by
  simp only [completedSignal, h]

theorem completedSignal_of_takes {i : Instr} {s : State} {b : Int} (h : Takes i s b) :
    completedSignal i s = .jump := by
  obtain ⟨x, y, a, ⟨rfl, ha0⟩ | ⟨rfl, ha0⟩, ha, -⟩ := h
  · simp only [completedSignal, ha, isTrueWord_eq_true.mpr ha0, if_true]
  · simp only [completedSignal, ha, isTrueWord_eq_false.mpr ha0, Bool.false_eq_true, if_false]

theorem completedSignal_of_passes {i : Instr} {s : State} (h : Passes i s) : completedSignal i s = .none := by
  obtain ⟨x, y, a, ⟨rfl, ha0⟩ | ⟨rfl, ha0⟩, ha⟩ := h
  · simp only [completedSignal, ha, isTrueWord_eq_false.mpr ha0, Bool.false_eq_true, if_false]
  · simp only [completedSignal, ha, isTrueWord_eq_true.mpr ha0, if_true]

/-- The four instructions that store a result signal nothing. -/
theorem completedSignal_of_store {i : Instr} {s : State} {t : Operand} (hi : i.opcode ≠ .inp)
    (hw : i.writeOperand = some t) : completedSignal i s = .none := by
  cases i with
  | add | mul | lt | eq => rfl
  | inp => exact absurd rfl hi
  | out | jt | jf | arb | halt => cases hw

/-- What a signal says of the instruction `i` that led from `s` to `u`. -/
inductive Reports (i : Instr) (s u : State) : Signal → Prop where
  | producedOutput {x : Operand} {v : Int} (hi : i = .out x) (hu : u.outq = s.outq ++ [v]) :
      Reports i s u (.producedOutput v)
  | halt (hi : i = .halt) (hu : u.status = .halted) : Reports i s u .halt
  | needsInput {t : Operand} (hi : i = .inp t) : Reports i s u .needsInput
  | jump {b : Int} (ht : Takes i s b) (hu : u = s.setPc b) : Reports i s u .jump
  | none : Reports i s u .none

theorem Effect.reports {i : Instr} {s u : State} (h : Effect i s u) : Reports i s u (completedSignal i s) := by
  cases h with
  | store hi hw _ _ _ => exact completedSignal_of_store hi hw ▸ .none
  | consume hi _ _ _ => subst hi; exact .needsInput rfl
  | await hi _ _ => subst hi; exact .needsInput rfl
  | emit hi hv _ => subst hi; exact completedSignal_out hv ▸ .producedOutput rfl rfl
  | jump ht => exact completedSignal_of_takes ht ▸ .jump ht rfl
  | pass hp _ => exact completedSignal_of_passes hp ▸ .none
  | rebase hi _ _ => subst hi; exact .none
  | halt hi _ => subst hi; exact .halt rfl rfl

/-! ### The signal of a step -/

theorem stepSignal_of_raise {s : State} {c : Cause} (h : step s = .next (s.raise c)) :
    stepSignal s = some (.fault c) := by
  simp only [stepSignal, h, State.raise_status, State.raise_cause]

theorem stepSignal_of_effect {i : Instr} {s u : State} (hs : s.status = .running) (hf : s.fetch = .ok i)
    (h : step s = .next u) (he : Effect i s u) : stepSignal s = some (completedSignal i s) := by
  have hne := he.status_ne_faulted hs
  unfold stepSignal
  rw [h]
  cases hu : u.status with
  | faulted => exact absurd hu hne
  | running | awaitingInput | halted => simp only [hu, hf]

/-- A running engine's step, with its signal: fault entry, or the fetched instruction's effect. -/
theorem running_step_cases {s : State} (hs : s.status = .running) :
    (∃ c, step s = .next (s.raise c) ∧ stepSignal s = some (.fault c)) ∨
      ∃ i u, s.fetch = .ok i ∧ step s = .next u ∧ Effect i s u ∧ stepSignal s = some (completedSignal i s) := by
  obtain ⟨u, hu⟩ := (stepExistsExactlyWhileRunning s).1 hs
  rcases step_resume_effect hu with ⟨c, rfl⟩ | ⟨i, hf, he, -⟩
  · exact .inl ⟨c, hu, stepSignal_of_raise hu⟩
  · rw [State.resume_of_running hs] at he
    exact .inr ⟨i, u, hf, hu, he, stepSignal_of_effect hs hf hu he⟩

section
variable {s : State} (hs : s.status = .running)
include hs

theorem stepSignal_producedOutput_iff (v : Int) :
    stepSignal s = some (.producedOutput v) ↔ ∃ u, step s = .next u ∧ u.outq = s.outq ++ [v] := by
  rcases running_step_cases hs with ⟨c, hstep, hsig⟩ | ⟨i, u, -, hstep, he, hsig⟩
  · simp [hstep, hsig]
  · rw [hsig, hstep]
    simp only [Option.some.injEq, Host.Outcome.next.injEq, exists_eq_left']
    constructor
    · intro hσ
      have hr := he.reports
      rw [hσ] at hr
      cases hr with
      | producedOutput _ hu => exact hu
    · intro hu
      rcases he.outq with hsame | ⟨v', x, hu', rfl, hv⟩
      · simp [hsame] at hu
      · obtain rfl : v' = v := by simpa [hu'] using hu
        exact completedSignal_out hv

theorem stepSignal_halt_iff : stepSignal s = some .halt ↔ ∃ u, step s = .next u ∧ u.status = .halted := by
  rcases running_step_cases hs with ⟨c, hstep, hsig⟩ | ⟨i, u, -, hstep, he, hsig⟩
  · simp [hstep, hsig]
  · rw [hsig, hstep]
    simp only [Option.some.injEq, Host.Outcome.next.injEq, exists_eq_left']
    constructor
    · intro hσ
      have hr := he.reports
      rw [hσ] at hr
      cases hr with
      | halt _ hu => exact hu
    · intro hu
      rcases he.status with ⟨-, hst⟩ | ⟨rfl, -⟩ | ⟨_, -, -, -, rfl⟩
      · rw [hst, hs] at hu
        cases hu
      · rfl
      · cases hu

theorem stepSignal_fault_iff (c : Cause) : stepSignal s = some (.fault c) ↔ step s = .next (s.raise c) := by
  refine ⟨fun hσ => ?_, stepSignal_of_raise⟩
  rcases running_step_cases hs with ⟨d, hstep, hsig⟩ | ⟨i, u, -, -, he, hsig⟩
  · obtain rfl : d = c := by simpa [hsig] using hσ
    exact hstep
  · have hr := he.reports
    rw [Option.some.inj (hsig.symm.trans hσ)] at hr
    cases hr

theorem stepSignal_needsInput_iff : stepSignal s = some .needsInput ↔
    ∃ u t, step s = .next u ∧ u.status ≠ .faulted ∧ s.fetch = .ok (.inp t) := by
  rcases running_step_cases hs with ⟨c, hstep, hsig⟩ | ⟨i, u, hf, hstep, he, hsig⟩
  · simp [hstep, hsig]
  · rw [hsig]
    constructor
    · intro hσ
      have hr := he.reports
      rw [Option.some.inj hσ] at hr
      cases hr with
      | needsInput hi => exact ⟨u, _, hstep, he.status_ne_faulted hs, hi ▸ hf⟩
    · rintro ⟨_, t, -, -, hf'⟩
      obtain rfl : i = .inp t := Except.ok.inj (hf.symm.trans hf')
      rfl

theorem stepSignal_jump_iff : stepSignal s = some .jump ↔ ∃ x y a b,
    ((s.fetch = .ok (.jt x y) ∧ a ≠ 0) ∨ (s.fetch = .ok (.jf x y) ∧ a = 0)) ∧
    s.rd x = .ok a ∧ s.rd y = .ok b ∧ step s = .next { s with pc := b.toNat } := by
  rcases running_step_cases hs with ⟨c, hstep, hsig⟩ | ⟨i, u, hf, hstep, he, hsig⟩
  · rw [hsig]
    refine ⟨nofun, fun ⟨_, _, _, b, _, _, _, hjump⟩ => ?_⟩
    have hu : s.raise c = { s with pc := b.toNat } := Host.Outcome.next.inj (hstep.symm.trans hjump)
    have hst : Status.faulted = s.status := congrArg State.status hu
    rw [hs] at hst
    cases hst
  · rw [hsig]
    constructor
    · intro hσ
      have hr := he.reports
      rw [Option.some.inj hσ] at hr
      cases hr with
      | jump ht hu =>
        obtain ⟨x, y, a, hi, ha, hb⟩ := ht
        refine ⟨x, y, a, _, hi.imp ?_ ?_, ha, hb, hstep.trans (congrArg _ hu)⟩
        · exact And.imp_left fun hi => hi ▸ hf
        · exact And.imp_left fun hi => hi ▸ hf
    · rintro ⟨x, y, a, b, hi, ha, hb, -⟩
      refine congrArg some (completedSignal_of_takes (b := b) ⟨x, y, a, hi.imp ?_ ?_, ha, hb⟩)
      · exact And.imp_left fun hf' => Except.ok.inj (hf.symm.trans hf')
      · exact And.imp_left fun hf' => Except.ok.inj (hf.symm.trans hf')

end

/-- Settles O40, signal by signal. -/
theorem signalsReportWhatTheStepDid : Obligations.SignalsReportWhatTheStepDid := fun _ hs =>
  ⟨stepSignal_producedOutput_iff hs, stepSignal_halt_iff hs, stepSignal_fault_iff hs,
    stepSignal_needsInput_iff hs, stepSignal_jump_iff hs⟩

end Sys2Proof.Machine
end

section
/-! PROOFS. The loader (70_reset_and_hazards.md R184, R185): a text parses exactly when it is a line of the
grammar, and loading it is the reset with what it parses to. -/

namespace Sys2Proof.Machine

/-- The stages of the loader together: a text parses exactly when it is a line, to its integers' values. -/
theorem parseProgram_eq_ok {W : Nat} {text : List Char} {P : List Int} :
    parseProgram W text = .ok P ↔ ∃ tokens, IsLineOf W tokens text ∧ P = tokens.map Token.value := by
  unfold parseProgram
  rw [parseTokens_eq_ok]
  constructor
  · rintro ⟨tokens, hlegal, hsplit, rfl⟩
    obtain ⟨hne, hstrip⟩ := splitTokens_eq_map_text.mp hsplit
    exact ⟨tokens, ⟨hne, hlegal, stripTerminator_eq hstrip⟩, rfl⟩
  · rintro ⟨tokens, hline, rfl⟩
    have hstrip := stripTerminator_of_isLineOf hline
    obtain ⟨hne, hlegal, -⟩ := hline
    exact ⟨tokens, hlegal, splitTokens_eq_map_text.mpr ⟨hne, hstrip⟩, rfl⟩

theorem loadText_eq_ok {cfg : Config} {text : List Char} {I : List Int} {s : State} :
    loadText cfg text I = .ok s ↔ ∃ P, parseProgram cfg.wordWidth text = .ok P ∧ s = State.load cfg P I := by
  simp only [loadText, except_bind_eq_ok, except_pure, Except.ok.injEq, eq_comm (a := s)]

/-- There is one load error (R185). -/
theorem loadText_eq_error {cfg : Config} {text : List Char} {I : List Int}
    (h : ∀ s, loadText cfg text I ≠ .ok s) : loadText cfg text I = .error .malformedProgram := by
  cases hl : loadText cfg text I with
  | ok s => exact absurd hl (h s)
  | error e => cases e; rfl

/-- The cells of the loaded machine are the integers of the text, in order. -/
theorem State.load_read_token {cfg : Config} {tokens : List Token} {I : List Int} {i : Nat} {t : Token}
    (h : tokens[i]? = some t) : (State.load cfg (tokens.map Token.value) I).mem.read i = t.value := by
  obtain ⟨hi, rfl⟩ := List.getElem?_eq_some_iff.mp h
  rw [State.load_read_program cfg _ I (by rwa [List.length_map]), List.getElem_map]

theorem IsLineOf.allWords {W : Nat} {tokens : List Token} {text : List Char} (h : IsLineOf W tokens text) :
    AllWords W (tokens.map Token.value) := by
  obtain ⟨-, hlegal, -⟩ := h
  exact List.forall_mem_map.mpr fun t ht => (hlegal t ht).2

theorem IsLineOf.mem_stripTerminator {W : Nat} {tokens : List Token} {text : List Char}
    (h : IsLineOf W tokens text) {c : Char} (hc : c ∈ stripTerminator text) :
    c = ',' ∨ c = '-' ∨ (48 ≤ c.toNat ∧ c.toNat ≤ 57) := by
  rw [stripTerminator_of_isLineOf h] at hc
  rcases mem_lineText hc with hcomma | hminus | ⟨d, rfl⟩
  · exact .inl hcomma
  · exact .inr (.inl hminus)
  · rw [digitChar_toNat]
    omega

/-- Settles O41: both directions and the refusal are those of the parser. -/
theorem loadedTextGivesWords : Obligations.LoadedTextGivesWords := by
  intro cfg text I
  refine ⟨fun tokens hline => loadText_eq_ok.mpr ⟨_, parseProgram_eq_ok.mpr ⟨tokens, hline, rfl⟩, rfl⟩,
    fun s hload => ?_, fun hno => loadText_eq_error fun s hload => ?_⟩
  · obtain ⟨P, hparse, rfl⟩ := loadText_eq_ok.mp hload
    obtain ⟨tokens, hline, rfl⟩ := parseProgram_eq_ok.mp hparse
    exact ⟨tokens, _, hline, rfl, hparse, List.map_eq_nil_iff.not.mpr hline.1, hline.allWords, rfl,
      fun _ _ => State.load_read_token, fun _ => hline.mem_stripTerminator⟩
  · obtain ⟨P, hparse, -⟩ := loadText_eq_ok.mp hload
    obtain ⟨tokens, hline, -⟩ := parseProgram_eq_ok.mp hparse
    exact hno tokens hline

end Sys2Proof.Machine
end
